-- ==== Sys2Proof/Word.lean ====
section
/-! DEFINITION. The words of the block (R8): bytes, byte sequences and the unsigned integers u16, u32 and u64. -/

namespace Sys2Proof

/-- A byte, 8 bits with values 0 to 255 (R8). -/
abbrev Byte := BitVec 8

/-- A byte sequence, first byte first (R9). The block has no address space (R50): every byte it processes stands in
such a sequence. -/
abbrev Bytes := List Byte

/-- `u16` of R8. -/
abbrev U16 := BitVec 16

/-- `u32` of R8. -/
abbrev U32 := BitVec 32

/-- `u64` of R8. -/
abbrev U64 := BitVec 64

end Sys2Proof
end

