-- ==== Sys2Proof/Machine/Operands.lean ====
section
/-! DEFINITION. Operand forms: slices of byte sequences (R9), little-endian integers (R10, R52) and the fields of a
frame (R70, R71). -/

namespace Sys2Proof.Machine

open Sys2Proof

/-- The value of a whole byte sequence as a little-endian unsigned integer: Σ b[i]·2^(8i) (R10). -/
def leNat : Bytes → Nat
  | [] => 0
  | b :: bs => b.toNat + 256 * leNat bs

/-- `buf[a:b]`, bytes `a` to `b − 1` (R9). -/
def slice (buf : Bytes) (a b : Nat) : Bytes := (buf.drop a).take (b - a)

/-- `le_N(buf, off)` (R10), for `off + n ≤ len(buf)`; every use stands behind a check of the length. -/
def leAt (n : Nat) (buf : Bytes) (off : Nat) : Nat := leNat (slice buf off (off + n))

/-- `bytes_N(v)`, the N-byte little-endian encoding of `v mod 2^(8N)` (R10). -/
def leBytes : Nat → Nat → Bytes
  | 0, _ => []
  | n + 1, v => BitVec.ofNat 8 v :: leBytes n (v / 256)

/-- `buf[i]` (R9); 0 beyond the end, which no use reaches. -/
def byteAt (buf : Bytes) (i : Nat) : Byte := buf.getD i 0

/-- `zeros(n)`, n bytes of 0x00 (R9). -/
def zeros (n : Nat) : Bytes := List.replicate n 0

/-- The header length, 36 bytes (R6, R70). -/
def headerLength : Nat := 36

/-- The `magic` field, bytes 0 to 3 (R70, R71). -/
def magicOf (f : Bytes) : U32 := BitVec.ofNat 32 (leAt 4 f 0)

/-- The `version` field, bytes 4 and 5 (R70, R71). -/
def versionOf (f : Bytes) : U16 := BitVec.ofNat 16 (leAt 2 f 4)

/-- The `flags` field, bytes 6 and 7 (R70, R71). -/
def flagsOf (f : Bytes) : U16 := BitVec.ofNat 16 (leAt 2 f 6)

/-- The `sequence` field, bytes 8 to 15 (R70, R71). -/
def sequenceOf (f : Bytes) : U64 := BitVec.ofNat 64 (leAt 8 f 8)

/-- The `payloadSize` field, bytes 16 to 23 (R70, R71). -/
def payloadSizeOf (f : Bytes) : U64 := BitVec.ofNat 64 (leAt 8 f 16)

/-- The `reserved` field, bytes 24 to 31 (R70, R71). -/
def reservedOf (f : Bytes) : U64 := BitVec.ofNat 64 (leAt 8 f 24)

/-- The `crc32` field, bytes 32 to 35 (R70, R71). -/
def crcFieldOf (f : Bytes) : U32 := BitVec.ofNat 32 (leAt 4 f 32)

/-- The payload, bytes 36 to 35 + payloadSize (R70, R71). The sum is on unbounded naturals (R8, D31). -/
def payloadOf (f : Bytes) : Bytes := slice f headerLength (headerLength + (payloadSizeOf f).toNat)

end Sys2Proof.Machine
end

