-- ==== Sys2Proof/Syntax.lean ====
section
/-! DEFINITION. The commands of the block: one constructor for each row of the opcode table (R82), with the operands
of its format (R81). -/

namespace Sys2Proof

/-- A command of the opcode map (R82). A length operand `L` is the length of the byte sequence it counts (R81, R86),
so it has no argument of its own. DESIGN CHOICE, safe: log entry 6. -/
inductive Instr where
  /-- CRC_INIT, opcode 0x01, format N (R102). -/
  | crcInit
  /-- CRC_BYTE b, opcode 0x02, format B (R103). -/
  | crcByte (b : Byte)
  /-- CRC_BLOCK [m], opcode 0x03, format L (R104). -/
  | crcBlock (m : Bytes)
  /-- CRC_READ, opcode 0x04, format N (R105). -/
  | crcRead
  /-- ENCODE seq, flags, [payload], opcode 0x10, format E (R120). -/
  | encodeFrame (seq : U64) (flags : U16) (payload : Bytes)
  /-- DECODE [buf], opcode 0x20, format L (R140). -/
  | decodeFrame (buf : Bytes)
  /-- RX_START, opcode 0x30, format N (R166). -/
  | rxStart
  /-- RX_BYTE b, opcode 0x31, format B (R161). -/
  | rxByte (b : Byte)
  /-- RX_EOS, opcode 0x32, format N (R167). -/
  | rxEos
  /-- CFG_READ r, opcode 0x40, format R (R190). The register number is any u8: a reserved one is answered
  ILLEGAL_COMMAND by the command's own rule. -/
  | cfgRead (r : Byte)
  /-- CFG_WRITE r, v, opcode 0x41, format W (R191). -/
  | cfgWrite (r : Byte) (v : U64)
deriving DecidableEq, Repr

/-- The pseudo-commands of R87, which have no encoding of their own. -/
inductive Pseudo where
  /-- `RX_FEED [b0 … bn-1]`. -/
  | rxFeed (bs : Bytes)
  /-- `CRC_OF [bytes]`. -/
  | crcOf (bs : Bytes)
  /-- `CFG_DEFAULTS`. -/
  | cfgDefaults
deriving DecidableEq, Repr

end Sys2Proof
end

