-- ==== Sys2Proof/Decode.lean ====
section
/-! DEFINITION. The command decoder, total on every byte sequence (R80 to R83, R88), the encoder written from the
same tables, and the expansion of the pseudo-commands (R87). -/

namespace Sys2Proof

open Sys2Proof.Machine

/-- The six command formats (R81). -/
inductive Format where
  /-- No operand. -/
  | N
  /-- One byte. -/
  | B
  /-- A length and that many bytes. -/
  | L
  /-- ENCODE's sequence, flags, length and payload. -/
  | E
  /-- A register number. -/
  | R
  /-- A register number and a value. -/
  | W
deriving DecidableEq, Repr

/-- Why a packet is no command (R83, R192). Each is answered ILLEGAL_COMMAND; none stops the block. -/
inductive Illegal where
  /-- A packet of no bytes. -/
  | emptyPacket
  /-- An opcode that R82 does not list. -/
  | reservedOpcode (op : Byte)
  /-- A packet whose length is not the one its opcode's format requires (R80). -/
  | wrongLength (op : Byte)
deriving DecidableEq, Repr

/-- What the decoder answers: exactly one command, or illegal (R88). -/
inductive Decoded where
  /-- The packet is this command. -/
  | command (i : Instr)
  /-- The packet is illegal. -/
  | illegal (why : Illegal)
deriving DecidableEq, Repr

/-- The packet's length without its data bytes (R81). -/
def fixedLength : Format → Nat
  | .N => 1
  | .B => 2
  | .L => 9
  | .E => 19
  | .R => 2
  | .W => 10

/-- The data length a packet gives in its length field: bytes 1 to 8 in format L, bytes 11 to 18 in format E (R81,
R88). -/
def dataLength (fmt : Format) (p : Bytes) : Nat :=
  match fmt with
  | .L => leAt 8 p 1
  | .E => leAt 8 p 11
  | .N | .B | .R | .W => 0

/-- The length the format requires of the packet (R80, R81). A packet too short to hold its length field is shorter
than this whatever the field reads as, so it is refused. -/
def requiredLength (fmt : Format) (p : Bytes) : Nat := fixedLength fmt + dataLength fmt p

/-- The row of the opcode map (R82) that byte 0 selects: its format, and the command with its operands read from the
packet at the offsets of R81. -/
def rowOf (op : Byte) (p : Bytes) : Option (Format × Instr) :=
  match op.toNat with
  | 0x01 => some (.N, .crcInit)
  | 0x02 => some (.B, .crcByte (byteAt p 1))
  | 0x03 => some (.L, .crcBlock (p.drop 9))
  | 0x04 => some (.N, .crcRead)
  | 0x10 => some (.E, .encodeFrame (BitVec.ofNat 64 (leAt 8 p 1)) (BitVec.ofNat 16 (leAt 2 p 9)) (p.drop 19))
  | 0x20 => some (.L, .decodeFrame (p.drop 9))
  | 0x30 => some (.N, .rxStart)
  | 0x31 => some (.B, .rxByte (byteAt p 1))
  | 0x32 => some (.N, .rxEos)
  | 0x40 => some (.R, .cfgRead (byteAt p 1))
  | 0x41 => some (.W, .cfgWrite (byteAt p 1) (BitVec.ofNat 64 (leAt 8 p 2)))
  | _ => none

/-- The decoder (R80, R88): the opcode first, then the packet's length against its format. -/
def decode (p : Bytes) : Decoded :=
  match p with
  | [] => .illegal .emptyPacket
  | op :: _ =>
    match rowOf op p with
    | none => .illegal (.reservedOpcode op)
    | some (fmt, i) => if p.length = requiredLength fmt p then .command i else .illegal (.wrongLength op)

/-- The packet of a command (R80, R81, R82): opcode, then operands little-endian with no padding. -/
def encode : Instr → Bytes
  | .crcInit => [0x01]
  | .crcByte b => [0x02, b]
  | .crcBlock m => 0x03 :: (leBytes 8 m.length ++ m)
  | .crcRead => [0x04]
  | .encodeFrame seq flags payload =>
    0x10 :: (leBytes 8 seq.toNat ++ leBytes 2 flags.toNat ++ leBytes 8 payload.length ++ payload)
  | .decodeFrame buf => 0x20 :: (leBytes 8 buf.length ++ buf)
  | .rxStart => [0x30]
  | .rxByte b => [0x31, b]
  | .rxEos => [0x32]
  | .cfgRead r => [0x40, r]
  | .cfgWrite r v => 0x41 :: r :: leBytes 8 v.toNat

/-- The real commands a pseudo-command stands for (R87). -/
def expand : Pseudo → List Instr
  | .rxFeed bs => bs.map Instr.rxByte
  | .crcOf bs => [.crcInit, .crcBlock bs, .crcRead]
  | .cfgDefaults => [.cfgWrite 0x00 0x44535746, .cfgWrite 0x01 1, .cfgWrite 0x02 0xFFFFFFFFFFFFFFFF]

/-- The packet whose bits are `w`, of which `nbits` are given and all above them are 0: byte 0 is the low byte, and
the packet is as long as its format requires (its operand bytes 0), or as long as the bits given. DESIGN CHOICE,
safe: log entry 15. -/
def packetOfWord (nbits w : Nat) : Bytes :=
  let v := w % 2 ^ nbits
  let required :=
    match rowOf (BitVec.ofNat 8 v) [] with
    | none => 1
    | some (fmt, _) => requiredLength fmt (leBytes (fixedLength fmt) v)
  leBytes (max (nbits / 8) required) v

/-- The command the decoder reads from the packet whose bits are `w`; none where it refuses. -/
def decodeTableWord (nbits w : Nat) : Option Instr :=
  match decode (packetOfWord nbits w) with
  | .command i => some i
  | .illegal _ => none

end Sys2Proof
end

