-- ==== Sys2Proof/Config.lean ====
section
/-! DEFINITION. The two points the spec leaves OPEN (R5, C7): one parameter and one draw. Neither has a body, so a
statement about the model holds for every value of them. -/

namespace Sys2Proof

/-- `MAX_PAYLOAD_CAP` (R5): the largest payload, in bytes, that the block can hold, any number from 0 to 2^64 − 1. The
spec leaves it OPEN: "the model takes it as an argument". DESIGN CHOICE, safe for
one block: log entry 1. That two states, taken as two blocks (R218), share one value of it is a DESIGN CHOICE, unsafe:
log entry 17. -/
opaque Config.maxPayloadCap : U64

/-- `RESET_vs_COMMAND` (R5, R241, D34): whether a command presented together with reset completes before the reset
(`true`) or is not taken at all (`false`). The spec leaves it OPEN, as a draw. The argument counts the draws, so that
each one is free of the others. DESIGN CHOICE, safe for one block: log entry 2. That two states, taken as two blocks
(R218), have one draw where their counts are equal is a DESIGN CHOICE, unsafe: log entry 17. -/
opaque Config.commandBeforeReset : Nat → Bool

end Sys2Proof
end

