-- ==== Sys2Proof/Machine/State.lean ====
section
/-! DEFINITION. The state of the block: the registers and the parser record of R20, and the command port (R21, R58,
R84, R217) as the packets the host has presented and the responses the block has returned. -/

namespace Sys2Proof.Machine

open Sys2Proof

/-- The names of the register map (R22). -/
inductive Reg where
  /-- 0x00, read/write (R23). -/
  | magic
  /-- 0x01, read/write (R24). -/
  | version
  /-- 0x02, read/write with a clamp (R25). -/
  | maxPayload
  /-- 0x03, read/write (R26). -/
  | crcAcc
  /-- 0x04, read-only, the parameter (R27). -/
  | maxPayloadCap
  /-- 0x10, read-only, a view of the parser (R28). -/
  | status
  /-- 0x11, read-only, a view of the parser (R29). -/
  | rxRemain
deriving DecidableEq, Repr

/-- The registers that hold state of their own (R20, R22). MAX_PAYLOAD_CAP, STATUS and RX_REMAIN are views. -/
structure Regs where
  /-- MAGIC, 32 bits (R23). -/
  magic : U32
  /-- VERSION, 16 bits (R24). -/
  version : U16
  /-- MAX_PAYLOAD, 64 bits (R25). -/
  maxPayload : U64
  /-- CRC_ACC, 32 bits, before the final XOR (R26). -/
  crcAcc : U32
deriving DecidableEq, Repr

/-- The four states of the byte-serial parser (R30). -/
inductive RxState where
  /-- Collecting the 36 header bytes. -/
  | header
  /-- Collecting the payload bytes of a header that passed its checks. -/
  | payload
  /-- Scanning for the 4 bytes of MAGIC after an error. -/
  | resync
  /-- The stream has ended. -/
  | closed
deriving DecidableEq, Repr

/-- The byte-serial parser (R20, R30 to R34). -/
structure Rx where
  /-- `rx.state` (R30). -/
  state : RxState
  /-- `rx.hdr`, the header bytes captured, or the search window (R31). -/
  hdr : Bytes
  /-- `rx.buf`, the payload bytes received (R32). -/
  buf : Bytes
  /-- `rx.remain`, the payload bytes still to come (R33). -/
  remain : U64
  /-- `rx.last_err`, the code of the last parser error, or 0 (R34). -/
  lastErr : Byte
deriving DecidableEq, Repr

/-- What the host can present to the block (R217, R240, R241). -/
inductive Request where
  /-- A packet on the command port (R80). -/
  | command (packet : Bytes)
  /-- The reset input, asserted between commands (R240). -/
  | reset
  /-- A packet presented together with reset (R241). -/
  | commandWithReset (packet : Bytes)
deriving DecidableEq, Repr

/-- The whole machine. `reg` and `rx` are exactly the block's state (R20). The other fields are the model's own: the
port's two sides and the count of the draws taken. DESIGN CHOICE, safe: log entries 2, 3 and 4. -/
structure State where
  /-- The registers. -/
  reg : Regs
  /-- The byte-serial parser. -/
  rx : Rx
  /-- What the host has presented and the block has not yet taken, first presented first (R58, R217). -/
  requests : List Request
  /-- The response packets returned so far, first returned first (R84). -/
  responses : List Bytes
  /-- How many RESET_vs_COMMAND draws have been taken (R241). -/
  draws : Nat
deriving DecidableEq, Repr

/-- The faults of the block: none. "No command is a fault, a stuck state or a hang of the block" (R225, R213), so the
type has no constructor and no outcome of the model can be a fault. DEDUCED, safe: log entry 12. -/
inductive Fault where
deriving DecidableEq, Repr

/-- The refusals of the model. An illegal command is no refusal: it is answered ILLEGAL_COMMAND (R225).
DEDUCED, safe: log entry 5. -/
inductive Refusal where
  /-- Raised only by an arm of `exec` whose instruction has no meaning yet; safe, and no arm raises it. -/
  | notModelled (mnemonic : String)
deriving DecidableEq, Repr

/-- The reset values of the registers (R22, R240). -/
def Regs.reset : Regs where
  magic := 0x44535746
  version := 1
  maxPayload := Config.maxPayloadCap
  crcAcc := 0xFFFFFFFF

/-- The reset values of the parser (R30 to R34, R240). -/
def Rx.reset : Rx where
  state := .header
  hdr := []
  buf := []
  remain := 0
  lastErr := 0

/-- The machine right after reset (R240), with nothing presented on the port, nothing returned and no draw taken. -/
def State.reset : State where
  reg := Regs.reset
  rx := Rx.reset
  requests := []
  responses := []
  draws := 0

end Sys2Proof.Machine
end

