-- ==== Sys2Proof/Machine/Flags.lean ====
section
/-! DEFINITION. The block has no condition codes (R39): the outcome of a command is its response status. Here stand
the status codes (R85), the response packet (R84) and the STATUS register's view of the parser (R28). -/

namespace Sys2Proof.Machine

open Sys2Proof

/-- The response statuses (R85). -/
inductive Status where
  /-- The command completed. -/
  | ok
  /-- RX_BYTE took the byte. -/
  | needMore
  /-- RX_BYTE completed a good header with payload to come. -/
  | headerOk
  /-- A frame passed every check; its bytes follow. -/
  | frame
  /-- `InvalidHeader`. -/
  | invalidHeader
  /-- `UnsupportedVersion`. -/
  | unsupportedVersion
  /-- `PayloadTooLarge`. -/
  | payloadTooLarge
  /-- `CrcMismatch`. -/
  | crcMismatch
  /-- `Closed` / `Disconnected`. -/
  | closed
  /-- R83. -/
  | illegalCommand
deriving DecidableEq, Repr

/-- The numeric status codes (R85). -/
def Status.code : Status → Byte
  | .ok => 0x00
  | .needMore => 0x01
  | .headerOk => 0x02
  | .frame => 0x03
  | .invalidHeader => 0x10
  | .unsupportedVersion => 0x11
  | .payloadTooLarge => 0x12
  | .crcMismatch => 0x13
  | .closed => 0x20
  | .illegalCommand => 0x30

/-- The response packet: the status code, then the data (R84). -/
def Status.packet (st : Status) (data : Bytes) : Bytes := st.code :: data

/-- `state_code` (R190): the field RX_STATE of STATUS (R28). -/
def stateCode : RxState → U64
  | .header => 0
  | .payload => 1
  | .resync => 2
  | .closed => 3

/-- The STATUS register (R28, R190): RX_STATE in bits 1:0, LAST_ERR in 15:8, HDR_COUNT in 21:16, the rest 0. -/
def statusView (rx : Rx) : U64 :=
  stateCode rx.state ||| (rx.lastErr.setWidth 64 <<< 8) ||| (BitVec.ofNat 64 rx.hdr.length <<< 16)

end Sys2Proof.Machine
end

