-- ==== Sys2Proof/Machine/Ops.lean ====
section
/-! DEFINITION. The named operations over the state: the two parts of the block, the command port, responses and
errors (R11, R210 to R214), the register file (R22, R190, R191) and reset (R240). The block has no memory (R50) and
takes no exception: an error is a response (R213), and `raise` is the one shared operation that gives it. -/

namespace Sys2Proof.Machine

open Sys2Proof

/-- What a command's meaning answers. -/
abbrev Result := Host.Outcome State Fault Refusal

/-- `reg[…] <- …` on the whole register record (R11). -/
def State.setReg (s : State) (reg : Regs) : State := { s with reg := reg }

/-- `rx.… <- …` on the whole parser record (R11). -/
def State.setRx (s : State) (rx : Rx) : State := { s with rx := rx }

/-- `respond(S, data)` (R11, R84): return one response packet. -/
def respond (st : Status) (data : Bytes) (s : State) : State :=
  { s with responses := s.responses ++ [st.packet data] }

/-- `raise E` (R11, R213): an error response carries no data, saves no state and transfers no control. -/
def raise (e : Status) (s : State) : State := respond e [] s

/-- The empty parser in a given state: no header byte, no payload byte, nothing to come. -/
def Rx.cleared (st : RxState) (lastErr : Byte) : Rx where
  state := st
  hdr := []
  buf := []
  remain := 0#64
  lastErr := lastErr

/-- The register map (R22): the register a number names, none for a reserved number (R36). That such a packet
decodes and is answered by the command's meaning is DEDUCED, safe: log entry 7. -/
def Reg.ofNumber (r : Byte) : Option Reg :=
  match r.toNat with
  | 0x00 => some .magic
  | 0x01 => some .version
  | 0x02 => some .maxPayload
  | 0x03 => some .crcAcc
  | 0x04 => some .maxPayloadCap
  | 0x10 => some .status
  | 0x11 => some .rxRemain
  | _ => none

/-- The value CFG_READ returns, zero-extended to 64 bits (R22, R190). -/
def readReg (s : State) : Reg → U64
  | .magic => s.reg.magic.setWidth 64
  | .version => s.reg.version.setWidth 64
  | .maxPayload => s.reg.maxPayload
  | .crcAcc => s.reg.crcAcc.setWidth 64
  | .maxPayloadCap => Config.maxPayloadCap
  | .status => statusView s.rx
  | .rxRemain => s.rx.remain

/-- `min(v, MAX_PAYLOAD_CAP)` (R25, R191). -/
def clampToCap (v : U64) : U64 := if v ≤ Config.maxPayloadCap then v else Config.maxPayloadCap

/-- The registers after CFG_WRITE stores `v` (R191): the low bits of a read/write register, MAX_PAYLOAD clamped; none
for a read-only register. -/
def writeReg (reg : Regs) (v : U64) : Reg → Option Regs
  | .magic => some { reg with magic := v.setWidth 32 }
  | .version => some { reg with version := v.setWidth 16 }
  | .maxPayload => some { reg with maxPayload := clampToCap v }
  | .crcAcc => some { reg with crcAcc := v.setWidth 32 }
  | .maxPayloadCap => none
  | .status => none
  | .rxRemain => none

/-- Reset (R240): every component of the block takes its reset value. Reset returns no response, and it is no event
of the port: what the host has presented and what was returned stay. DESIGN CHOICE, safe: log entries 3 and 4. -/
def State.resetBlock (s : State) : State := { s with reg := Regs.reset, rx := Rx.reset }

/-- Count one RESET_vs_COMMAND draw (R241). -/
def State.countDraw (s : State) : State := { s with draws := s.draws + 1 }

/-- Take the request at the head of the port, leaving `rest` (R58). -/
def State.setRequests (s : State) (rest : List Request) : State := { s with requests := rest }

end Sys2Proof.Machine
end

