-- ==== Sys2Proof/Machine/Cfg.lean ====
section
/-! DEFINITION. Register access: CFG_READ and CFG_WRITE (R190 to R192). -/

namespace Sys2Proof.Machine

open Sys2Proof

/-- CFG_READ r (R190): the register's value as 8 bytes; ILLEGAL_COMMAND for a reserved number. Reading has no side
effect (R60). -/
def execCfgRead (r : Byte) (s : State) : Result :=
  match Reg.ofNumber r with
  | some n => .next (respond .ok (leBytes 8 (readReg s n).toNat) s)
  | none => .next (raise .illegalCommand s)

/-- CFG_WRITE r, v (R191): the one register named is written; ILLEGAL_COMMAND, and nothing written, for a reserved
number or a read-only register. -/
def execCfgWrite (r : Byte) (v : U64) (s : State) : Result :=
  match (Reg.ofNumber r).bind (writeReg s.reg v) with
  | some reg => .next (respond .ok [] (s.setReg reg))
  | none => .next (raise .illegalCommand s)

end Sys2Proof.Machine
end

