-- ==== Sys2Proof/Machine/Checksum.lean ====
section
/-! DEFINITION. The CRC-32 function (R7, R100, R101) and what it covers in a frame (R72). It is a pure function: the
datapath of ENCODE, DECODE and RX_BYTE is private to the command (R35). -/

namespace Sys2Proof.Machine

open Sys2Proof

/-- The polynomial 0x04C11DB7 in reflected form (R7). PRESUMED by the spec from general knowledge (D5, G1);
unsafe: log entry 8. -/
def crcPolynomial : U32 := 0xEDB88320

/-- The initial value of the accumulator (R7). -/
def crcInitial : U32 := 0xFFFFFFFF

/-- The final XOR (R7). -/
def crcFinalXor : U32 := 0xFFFFFFFF

/-- One of the eight bit steps of R100: a logical right shift, with the polynomial folded in when the bit shifted out
is 1. -/
def crcBit (a : U32) : U32 := if a.getLsbD 0 then (a >>> 1) ^^^ crcPolynomial else a >>> 1

/-- `n` bit steps. -/
def crcBits : Nat → U32 → U32
  | 0, a => a
  | n + 1, a => crcBits n (crcBit a)

/-- `crc_step(acc, b)` (R100): fold one byte, least significant bit first (R54). -/
def crcStep (acc : U32) (b : Byte) : U32 := crcBits 8 (acc ^^^ b.setWidth 32)

/-- `crc_step` over a byte sequence, first byte first (R101, R104). -/
def crcFold (acc : U32) (m : Bytes) : U32 := m.foldl crcStep acc

/-- `crc32(bytes)` (R101). -/
def crc32 (m : Bytes) : U32 := crcFold crcInitial m ^^^ crcFinalXor

/-- What the CRC of a frame covers: the header with its `crc32` field zeroed, then the payload (R72). -/
def crcInput (header payload : Bytes) : Bytes := slice header 0 32 ++ zeros 4 ++ payload

end Sys2Proof.Machine
end

