-- ==== Sys2Proof/Machine/Crc.lean ====
section
/-! DEFINITION. The CRC commands (R102 to R105). They write CRC_ACC only (R35). -/

namespace Sys2Proof.Machine

open Sys2Proof

/-- `reg[CRC_ACC] <- acc`. -/
def State.setCrcAcc (s : State) (acc : U32) : State := s.setReg { s.reg with crcAcc := acc }

/-- CRC_INIT (R102). -/
def execCrcInit (s : State) : Result := .next (respond .ok [] (s.setCrcAcc crcInitial))

/-- CRC_BYTE b (R103). -/
def execCrcByte (b : Byte) (s : State) : Result := .next (respond .ok [] (s.setCrcAcc (crcStep s.reg.crcAcc b)))

/-- CRC_BLOCK [m] (R104). -/
def execCrcBlock (m : Bytes) (s : State) : Result := .next (respond .ok [] (s.setCrcAcc (crcFold s.reg.crcAcc m)))

/-- CRC_READ (R105): the accumulator after the final XOR, u32 little-endian; CRC_ACC is unchanged. -/
def execCrcRead (s : State) : Result := .next (respond .ok (leBytes 4 (s.reg.crcAcc ^^^ crcFinalXor).toNat) s)

end Sys2Proof.Machine
end

