-- ==== Sys2Proof/Machine/Frame.lean ====
section
/-! DEFINITION. The frame: its decoded record (R71, R84, D32), its assembly (R120) and the header checks DECODE and
RX_BYTE share (R141). -/

namespace Sys2Proof.Machine

open Sys2Proof

/-- The decoded Frame of the source, its eight fields (R71, R84), as a view of a FRAME response's bytes. DESIGN CHOICE,
safe: log entry 16. -/
structure Frame where
  /-- Bytes 0 to 3. -/
  magic : U32
  /-- Bytes 4 and 5. -/
  version : U16
  /-- Bytes 6 and 7. -/
  flags : U16
  /-- Bytes 8 to 15. -/
  sequence : U64
  /-- Bytes 16 to 23. -/
  payloadSize : U64
  /-- Bytes 24 to 31. -/
  reserved : U64
  /-- Bytes 32 to 35. -/
  crc : U32
  /-- Bytes 36 to 35 + payloadSize. -/
  payload : Bytes
deriving DecidableEq, Repr

/-- The record read from a frame's bytes (R71). -/
def readFrame (f : Bytes) : Frame where
  magic := magicOf f
  version := versionOf f
  flags := flagsOf f
  sequence := sequenceOf f
  payloadSize := payloadSizeOf f
  reserved := reservedOf f
  crc := crcFieldOf f
  payload := payloadOf f

/-- The header ENCODE assembles, 36 bytes with the field `crc32` holding `crc` (R70, R120). VERSION and a `reserved`
of 0 are written whatever the operands. -/
def headerBytes (reg : Regs) (seq : U64) (flags : U16) (size : Nat) (crc : U32) : Bytes :=
  leBytes 4 reg.magic.toNat ++ leBytes 2 reg.version.toNat ++ leBytes 2 flags.toNat ++ leBytes 8 seq.toNat
    ++ leBytes 8 size ++ leBytes 8 0 ++ leBytes 4 crc.toNat

/-- The frame of R120: the CRC is computed last, over the header with its own field zeroed and the payload. -/
def buildFrame (reg : Regs) (seq : U64) (flags : U16) (payload : Bytes) : Bytes :=
  let hdr0 := headerBytes reg seq flags payload.length 0
  let c := crc32 (hdr0 ++ payload)
  slice hdr0 0 32 ++ leBytes 4 c.toNat ++ payload

/-- The three header checks, in the order of R141: magic, version, `payloadSize` against MAX_PAYLOAD. The first that
fails gives its status; none when all pass. Comparisons are unsigned (R8). -/
def headerError (reg : Regs) (f : Bytes) : Option Status :=
  if magicOf f ≠ reg.magic then some .invalidHeader
  else if reg.version < versionOf f then some .unsupportedVersion
  else if reg.maxPayload < payloadSizeOf f then some .payloadTooLarge
  else none

/-- The recomputed CRC of the header and payload equals the stored one (R72). -/
def crcGood (header payload : Bytes) : Bool := crc32 (crcInput header payload) == crcFieldOf header

end Sys2Proof.Machine
end

