-- ==== Sys2Proof/Machine/Formatter.lean ====
section
/-! DEFINITION. The frame formatter: ENCODE (R120 to R122). It writes no state (R35). -/

namespace Sys2Proof.Machine

open Sys2Proof

/-- ENCODE seq, flags, [payload] (R120): a payload longer than MAX_PAYLOAD is refused (R121), any other is framed. -/
def execEncode (seq : U64) (flags : U16) (payload : Bytes) (s : State) : Result :=
  if s.reg.maxPayload.toNat < payload.length then .next (raise .payloadTooLarge s)
  else .next (respond .ok (buildFrame s.reg seq flags payload) s)

end Sys2Proof.Machine
end

