-- ==== Sys2Proof/Machine/Parser.lean ====
section
/-! DEFINITION. The whole-buffer frame parser: DECODE (R140 to R144). It writes no state (R35). -/

namespace Sys2Proof.Machine

open Sys2Proof

/-- What DECODE finds in a buffer (R140): the first check that fails, in the order of R141, or none. The end of the
frame is computed on unbounded naturals (R8), so it cannot wrap. -/
def decodeError (reg : Regs) (buf : Bytes) : Option Status :=
  if buf.length < headerLength then some .invalidHeader
  else
    match headerError reg buf with
    | some e => some e
    | none =>
      if buf.length < headerLength + (payloadSizeOf buf).toNat then some .payloadTooLarge
      else if crcGood buf (payloadOf buf) then none
      else some .crcMismatch

/-- DECODE [buf] (R140): an error carries no byte of the buffer, and FRAME carries the frame's own bytes without those
that follow it (R143). -/
def execDecode (buf : Bytes) (s : State) : Result :=
  match decodeError s.reg buf with
  | some e => .next (raise e s)
  | none => .next (respond .frame (slice buf 0 (headerLength + (payloadSizeOf buf).toNat)) s)

end Sys2Proof.Machine
end

