-- ==== Sys2Proof/Machine/Rx.lean ====
section
/-! DEFINITION. The byte-serial frame parser: RX_START, RX_BYTE and RX_EOS (R160 to R170). The commands write the
parser only, and each check reads MAGIC, VERSION and MAX_PAYLOAD as they are when it is made (R35, R168). What they do
in states that no run reaches is a DESIGN CHOICE, safe: log entry 9. -/

namespace Sys2Proof.Machine

open Sys2Proof

/-- `rx_error(E)` (R164): record the code, drop the frame, enter RESYNC, and answer the error with no data. -/
def rxError (e : Status) (s : State) : State := raise e (s.setRx (Rx.cleared .resync e.code))

/-- `finish_frame()` (R163): check the CRC of the frame complete in `rx.hdr` and `rx.buf`, and return it if it holds.
`rx.last_err` is not changed by a good frame. -/
def finishFrame (s : State) : State :=
  if crcGood s.rx.hdr s.rx.buf then
    respond .frame (s.rx.hdr ++ s.rx.buf) (s.setRx (Rx.cleared .header s.rx.lastErr))
  else rxError .crcMismatch s

/-- `payload_byte(b)` (R162). -/
def payloadByte (b : Byte) (s : State) : State :=
  let s := s.setRx { s.rx with buf := s.rx.buf ++ [b], remain := s.rx.remain - 1#64 }
  if s.rx.remain = 0#64 then finishFrame s else respond .needMore [] s

/-- The validation of a complete header, `rx.hdr`, at its 36th byte (R161). -/
def validateHeader (s : State) : State :=
  match headerError s.reg s.rx.hdr with
  | some e => rxError e s
  | none =>
    if payloadSizeOf s.rx.hdr = 0#64 then finishFrame s
    else
      respond .headerOk (leBytes 8 (payloadSizeOf s.rx.hdr).toNat)
        (s.setRx { s.rx with state := .payload, buf := [], remain := payloadSizeOf s.rx.hdr })

/-- RX_BYTE in state HEADER (R161): the header is validated only when all 36 bytes are present. -/
def headerByte (b : Byte) (s : State) : State :=
  let s := s.setRx { s.rx with hdr := s.rx.hdr ++ [b] }
  if s.rx.hdr.length < headerLength then respond .needMore [] s else validateHeader s

/-- The search window after byte `b` (R170): a window of four bytes that equals MAGIC makes the parser's first four
header bytes, and one that does not loses its oldest byte. -/
def resyncWindow (magic : U32) (b : Byte) (rx : Rx) : Rx :=
  let window := rx.hdr ++ [b]
  if window.length = 4 then
    if window = leBytes 4 magic.toNat then { rx with state := .header, hdr := window }
    else { rx with hdr := slice window 1 4 }
  else { rx with hdr := window }

/-- `resync_byte(b)` (R170): every response is NEED_MORE. -/
def resyncByte (b : Byte) (s : State) : State := respond .needMore [] (s.setRx (resyncWindow s.reg.magic b s.rx))

/-- RX_BYTE b (R161): dispatch on the parser's state; in CLOSED the byte is discarded (R165). -/
def execRxByte (b : Byte) (s : State) : Result :=
  match s.rx.state with
  | .closed => .next (raise .closed s)
  | .resync => .next (resyncByte b s)
  | .payload => .next (payloadByte b s)
  | .header => .next (headerByte b s)

/-- RX_START (R166): begin at a frame boundary, with no error recorded. -/
def execRxStart (s : State) : Result := .next (respond .ok [] (s.setRx (Rx.cleared .header 0#8)))

/-- RX_EOS (R167): the stream has ended; `rx.last_err` is kept. -/
def execRxEos (s : State) : Result := .next (respond .closed [] (s.setRx (Rx.cleared .closed s.rx.lastErr)))

end Sys2Proof.Machine
end

