-- ==== Sys2Proof/Machine/Dispatch.lean ====
section
/-! DEFINITION. The dispatch: one arm for each command of the opcode map (R82). -/

namespace Sys2Proof.Machine
open Sys2Proof

def exec (i : Instr) (s : State) : Host.Outcome State Fault Refusal :=
  match i with
  | .crcInit => Sys2Proof.Machine.execCrcInit s
  | .crcByte b => Sys2Proof.Machine.execCrcByte b s
  | .crcBlock m => Sys2Proof.Machine.execCrcBlock m s
  | .crcRead => Sys2Proof.Machine.execCrcRead s
  | .encodeFrame seq flags payload => Sys2Proof.Machine.execEncode seq flags payload s
  | .decodeFrame buf => Sys2Proof.Machine.execDecode buf s
  | .rxStart => Sys2Proof.Machine.execRxStart s
  | .rxByte b => Sys2Proof.Machine.execRxByte b s
  | .rxEos => Sys2Proof.Machine.execRxEos s
  | .cfgRead r => Sys2Proof.Machine.execCfgRead r s
  | .cfgWrite r v => Sys2Proof.Machine.execCfgWrite r v s

end Sys2Proof.Machine
end

