-- ==== Sys2Proof/Machine/Port.lean ====
section
/-! DEFINITION. The command port: how one request of the host is taken (R58, R80, R192, R240, R241). -/

namespace Sys2Proof.Machine

open Sys2Proof

/-- One packet on the command port. ILLEGAL_COMMAND is decided first, from the packet alone (R212), writes no state
and leaves the block ready (R192); every other packet is one command, run to completion (R58). -/
def runPacket (p : Bytes) (s : State) : Result :=
  match decode p with
  | .command i => exec i s
  | .illegal _ => .next (raise .illegalCommand s)

/-- A packet presented together with reset (R241): by the draw, it completes before the reset or is not taken at all.
In both cases the block is reset. That a completed packet's response is returned is DEDUCED, unsafe: log entry 13. -/
def resetWithPacket (p : Bytes) (s : State) : Result :=
  if Config.commandBeforeReset s.draws then
    match runPacket p s.countDraw with
    | .next t => .next t.resetBlock
    | .fault r => .fault r
    | .refused r => .refused r
  else .next s.countDraw.resetBlock

/-- Take the oldest request (R58). With none presented the block does nothing: it has no agent of its own that runs
between commands (R217). DESIGN CHOICE, safe: log entries 3 and 11. -/
def takeRequest (s : State) : Result :=
  match s.requests with
  | [] => .next s
  | .command p :: rest => runPacket p (s.setRequests rest)
  | .reset :: rest => .next (s.setRequests rest).resetBlock
  | .commandWithReset p :: rest => resetWithPacket p (s.setRequests rest)

/-- Present a packet at the head of the port, so that it is the next request taken. -/
def presentNext (p : Bytes) (s : State) : State := s.setRequests (.command p :: s.requests)

end Sys2Proof.Machine
end

