-- ==== Sys2Proof/Machine/Step.lean ====
section
/-! DEFINITION. The step of the machine: one request of the host, taken whole (R58). -/

namespace Sys2Proof.Machine

open Sys2Proof

/-- One step: the oldest request on the port is taken and answered. -/
def step (s : State) : Host.Outcome State Fault Refusal := takeRequest s

/-- The packet whose bits are `w` stands at the head of the port, so that the next step takes it. -/
def State.withFetchWord (s : State) (nbits w : Nat) : State := presentNext (packetOfWord nbits w) s

end Sys2Proof.Machine
end

