-- ==== Sys2Proof/WellFormed.lean ====
section
/-! DEFINITION. Which commands a packet can carry: the length operand `L` of formats L and E is a u64 (R81). -/

namespace Sys2Proof

/-- A byte sequence whose length the u64 length operand `L` can give (R81). -/
def lengthFits (m : Bytes) : Bool := decide (m.length < 2 ^ 64)

/-- The command has a packet (R81): each byte-sequence operand's length fits the field `L`. -/
def Instr.wf : Instr → Bool
  | .crcInit => true
  | .crcByte _ => true
  | .crcBlock m => lengthFits m
  | .crcRead => true
  | .encodeFrame _ _ payload => lengthFits payload
  | .decodeFrame buf => lengthFits buf
  | .rxStart => true
  | .rxByte _ => true
  | .rxEos => true
  | .cfgRead _ => true
  | .cfgWrite _ _ => true

end Sys2Proof
end

