-- ==== Sys2Proof/Safety.lean ====
section
/-! DEFINITION. What a good state and a good run are: the invariants of R38, the capacity bound of R32, runs of
several commands, and the spec's own classes of packets and commands, in the terms the statements use. -/

namespace Sys2Proof.Machine

open Sys2Proof

/-- The parser's part of R38, one clause for each state. -/
def Rx.Consistent (rx : Rx) : Prop :=
  match rx.state with
  | .header => rx.hdr.length ≤ 35 ∧ rx.buf = [] ∧ rx.remain = 0
  | .payload =>
    rx.hdr.length = 36 ∧ 1 ≤ leAt 8 rx.hdr 16 ∧ rx.buf.length + rx.remain.toNat = leAt 8 rx.hdr 16 ∧
      1 ≤ rx.remain.toNat
  | .resync => rx.hdr.length ≤ 3 ∧ rx.buf = [] ∧ rx.remain = 0
  | .closed => rx.hdr = [] ∧ rx.buf = [] ∧ rx.remain = 0

/-- The values `rx.last_err` can hold (R38). -/
def lastErrValues : List Byte := [0x00, 0x10, 0x11, 0x12, 0x13]

/-- The invariant of R38. -/
structure State.Inv (s : State) : Prop where
  /-- The clauses on the parser. -/
  parser : s.rx.Consistent
  /-- `reg[MAX_PAYLOAD] ≤ MAX_PAYLOAD_CAP`. -/
  maxPayload : s.reg.maxPayload ≤ Config.maxPayloadCap
  /-- `rx.last_err` is 0 or one of the four error codes. -/
  lastErr : s.rx.lastErr ∈ lastErrValues

/-- The frame in progress fits the payload buffer of MAX_PAYLOAD_CAP bytes (R20, R32). -/
def Rx.WithinCapacity (rx : Rx) : Prop :=
  rx.state = .payload → leAt 8 rx.hdr 16 ≤ Config.maxPayloadCap.toNat

/-- The parser stands at a frame boundary (R166): HEADER with nothing captured. -/
def Rx.AtBoundary (rx : Rx) : Prop := rx.state = .header ∧ rx.hdr = [] ∧ rx.buf = [] ∧ rx.remain = 0

/-- Several commands in the order given, stopping at the first outcome that is no next state (R58). -/
def execAll : List Instr → State → Result
  | [], s => .next s
  | i :: is, s =>
    match exec i s with
    | .next t => execAll is t
    | .fault r => .fault r
    | .refused r => .refused r

/-- The stream's bytes, one RX_BYTE command each (RX_FEED, R87). -/
def feed (bs : Bytes) (s : State) : Result := execAll (bs.map Instr.rxByte) s

/-- The operand bytes after the opcode are as long as R81 requires for it; false for the reserved opcodes of R83. The
length field is read only where it stands in the packet whole. -/
def PacketFits (op : Byte) (ops : Bytes) : Prop :=
  (op.toNat ∈ [0x01, 0x04, 0x30, 0x32] ∧ ops.length = 0) ∨
  (op.toNat ∈ [0x02, 0x31, 0x40] ∧ ops.length = 1) ∨
  (op.toNat = 0x41 ∧ ops.length = 9) ∨
  (op.toNat ∈ [0x03, 0x20] ∧ 8 ≤ ops.length ∧ ops.length = 8 + leNat (ops.take 8)) ∨
  (op.toNat = 0x10 ∧ 18 ≤ ops.length ∧ ops.length = 18 + leNat ((ops.drop 10).take 8))

/-- An illegal command as R192 lists them: an empty packet; a reserved opcode or a wrong length; a CFG_READ of a
reserved register; a CFG_WRITE to a reserved or read-only one. -/
def IllegalPacket : Bytes → Prop
  | [] => True
  | op :: ops =>
    ¬ PacketFits op ops ∨
    (op.toNat = 0x40 ∧ (ops.headD 0).toNat ∉ [0x00, 0x01, 0x02, 0x03, 0x04, 0x10, 0x11]) ∨
    (op.toNat = 0x41 ∧ (ops.headD 0).toNat ∉ [0x00, 0x01, 0x02, 0x03])

/-- The bytes of CRC input that a CRC_BYTE (left) or CRC_BLOCK (right) carries (R106). -/
def crcChunk : Byte ⊕ Bytes → Bytes
  | .inl b => [b]
  | .inr m => m

/-- The CRC_BYTE (left) or CRC_BLOCK (right) command of a chunk (R106). -/
def crcCommand : Byte ⊕ Bytes → Instr
  | .inl b => .crcByte b
  | .inr m => .crcBlock m

/-- Byte `k` of a sequence with bit `j` flipped (R145). -/
def flipBit (m : Bytes) (k j : Nat) : Bytes := m.set k (m.getD k 0 ^^^ BitVec.twoPow 8 j)

/-- The groups of commands that R35 keeps apart. -/
inductive Family where
  /-- CRC_INIT, CRC_BYTE, CRC_BLOCK and CRC_READ. -/
  | crc
  /-- ENCODE and DECODE. -/
  | frame
  /-- RX_START, RX_BYTE and RX_EOS. -/
  | rx
  /-- CFG_READ and CFG_WRITE. -/
  | cfg
deriving DecidableEq, Repr

/-- The group of a command (R35). -/
def familyOf : Instr → Family
  | .crcInit => .crc
  | .crcByte _ => .crc
  | .crcBlock _ => .crc
  | .crcRead => .crc
  | .encodeFrame _ _ _ => .frame
  | .decodeFrame _ => .frame
  | .rxStart => .rx
  | .rxByte _ => .rx
  | .rxEos => .rx
  | .cfgRead _ => .cfg
  | .cfgWrite _ _ => .cfg

/-- CFG_READ, CRC_READ, DECODE and ENCODE, which have no side effect on the block's state (R60). -/
def readsOnly : Instr → Bool
  | .crcRead => true
  | .encodeFrame _ _ _ => true
  | .decodeFrame _ => true
  | .cfgRead _ => true
  | .crcInit => false
  | .crcByte _ => false
  | .crcBlock _ => false
  | .rxStart => false
  | .rxByte _ => false
  | .rxEos => false
  | .cfgWrite _ _ => false

/-- The commands that consume their input, whose repetition changes the state again (R60). -/
def consumesInput : Instr → Bool
  | .crcByte _ => true
  | .crcBlock _ => true
  | .rxByte _ => true
  | .crcInit => false
  | .crcRead => false
  | .encodeFrame _ _ _ => false
  | .decodeFrame _ => false
  | .rxStart => false
  | .rxEos => false
  | .cfgRead _ => false
  | .cfgWrite _ _ => false

/-- The state after a frame is dropped with error code `c` (R164): RESYNC with an empty window, the code recorded and
answered. -/
def droppedFrame (c : Byte) (s : State) : State :=
  { s with
    rx := { state := .resync, hdr := [], buf := [], remain := 0, lastErr := c }
    responses := s.responses ++ [[c]] }

/-- The state after a frame is delivered (R163): at a frame boundary, the frame's bytes answered with FRAME. -/
def deliveredFrame (f : Bytes) (s : State) : State :=
  { s with
    rx := { state := .header, hdr := [], buf := [], remain := 0, lastErr := s.rx.lastErr }
    responses := s.responses ++ [0x03 :: f] }

/-- The responses to the bytes of one good frame with a payload of `size` bytes (R161 to R163, R169). -/
def frameResponses (f : Bytes) (size : Nat) : List Bytes :=
  List.replicate 35 [0x01] ++
    if size = 0 then [0x03 :: f]
    else (0x02 :: leBytes 8 size) :: (List.replicate (size - 1) [0x01] ++ [0x03 :: f])

end Sys2Proof.Machine
end

