-- ==== Sys2Proof/Certificates/Slice0/Obligations.lean ====
section
/-! DEFINITION. The statements about the model, for the provers. Each formalises the rules of spec/ its docstring
names; a clause that rests on a choice of the model names the log entry. Codes and addresses are written out as
numbers, so that a wrong table of the model makes a statement false. -/

open Sys2Proof Sys2Proof.Machine

/-! ## Encoding -/

/-- R80 to R82: the packet of every command decodes to that command, with every operand. -/
def Obligations.DecodeEncodeRoundTrip : Prop :=
  ∀ i : Instr, i.wf = true → decode (encode i) = .command i

/-- R88: a byte sequence that is a command is the packet of that command, so no bit of a packet is dropped and no
second packet means the same. -/
def Obligations.DecodedPacketIsTheEncoding : Prop :=
  ∀ (p : Bytes) (i : Instr), decode p = .command i → i.wf = true ∧ encode i = p

/-- The packets the decoder takes as commands are exactly those with an opcode of R82 and the length its format requires
(R80, R81). That a CFG packet with a reserved or read-only register number is among them, and is answered
ILLEGAL_COMMAND by the command's meaning, is the model's choice, DEDUCED in log entry 7: R83, R88 and R192 call such a
packet illegal, with the same outcome. -/
def Obligations.CommandsAreThePacketsThatFit : Prop :=
  decode [] = .illegal .emptyPacket ∧
  ∀ (op : Byte) (ops : Bytes), (∃ i, decode (op :: ops) = .command i) ↔ PacketFits op ops

/-- R81, R82: packets written out from the formats, one for each opcode. -/
def Obligations.WrittenOutPacketsDecode : Prop :=
  decode [0x01] = .command .crcInit ∧
  decode [0x02, 0x31] = .command (.crcByte 0x31) ∧
  decode [0x03, 0x02, 0, 0, 0, 0, 0, 0, 0, 0x31, 0x32] = .command (.crcBlock [0x31, 0x32]) ∧
  decode [0x04] = .command .crcRead ∧
  decode [0x10, 0x08, 0x07, 0x06, 0x05, 0x04, 0x03, 0x02, 0x01, 0xA5, 0x5A, 0x01, 0, 0, 0, 0, 0, 0, 0, 0xDE]
    = .command (.encodeFrame 0x0102030405060708 0x5AA5 [0xDE]) ∧
  decode [0x20, 0x02, 0, 0, 0, 0, 0, 0, 0, 0x46, 0x57] = .command (.decodeFrame [0x46, 0x57]) ∧
  decode [0x30] = .command .rxStart ∧
  decode [0x31, 0x46] = .command (.rxByte 0x46) ∧
  decode [0x32] = .command .rxEos ∧
  decode [0x40, 0x10] = .command (.cfgRead 0x10) ∧
  decode [0x41, 0x03, 0x5C, 0x1F, 0x1C, 0x64, 0, 0, 0, 0x80] = .command (.cfgWrite 0x03 0x80000000641C1F5C)

/-! ## The command port -/

/-- R58, R80: the packet at the head of the port is taken and its command executed. That the port is a list the step
reads is the model's choice; log entry 3. -/
def Obligations.StepRunsTheDecodedCommand : Prop :=
  ∀ (s : State) (p : Bytes) (rest : List Request) (i : Instr),
    s.requests = .command p :: rest → decode p = .command i → step s = exec i { s with requests := rest }

/-- The command of a table word, placed at the head of the port, is the one the next step executes (log entry 15). -/
def Obligations.FetchWordRunsAsTheNextCommand : Prop :=
  ∀ (s : State) (nbits w : Nat) (i : Instr),
    decodeTableWord nbits w = some i → step (s.withFetchWord nbits w) = exec i s

/-- R192: an illegal command is answered ILLEGAL_COMMAND with no data and writes no state. -/
def Obligations.IllegalCommandWritesNoState : Prop :=
  ∀ (s : State) (p : Bytes) (rest : List Request),
    s.requests = .command p :: rest → IllegalPacket p →
      step s = .next { s with requests := rest, responses := s.responses ++ [[0x30]] }

/-- R83, R192: no other packet is answered ILLEGAL_COMMAND. -/
def Obligations.OnlyIllegalPacketsAreAnsweredIllegal : Prop :=
  ∀ (s : State) (p : Bytes) (rest : List Request),
    s.requests = .command p :: rest → ¬ IllegalPacket p →
      ∃ t c d, step s = .next t ∧ t.responses = s.responses ++ [c :: d] ∧ c ≠ 0x30

/-- R58, R84, R85, R225: every command completes with exactly one response, its status one of the ten codes, and an
error response carries no data (R210). That responses stand in a list is the model's choice; log entry 4. -/
def Obligations.EveryPacketGetsOneResponse : Prop :=
  ∀ (s : State) (p : Bytes) (rest : List Request),
    s.requests = .command p :: rest →
      ∃ t c d, step s = .next t ∧ t.requests = rest ∧ t.draws = s.draws ∧ t.responses = s.responses ++ [c :: d] ∧
        c.toNat ∈ [0x00, 0x01, 0x02, 0x03, 0x10, 0x11, 0x12, 0x13, 0x20, 0x30] ∧ (0x10 ≤ c.toNat → d = [])

/-- R58, R217, R225: whatever the host presents, resets among it, is served to the end. One request a step is the
model's choice; log entry 3. -/
def Obligations.EveryHostSequenceIsServed : Prop :=
  ∀ s : State, ∃ t : State, Host.Core.run Sys2Proof.core s.requests.length s = .next t ∧ t.requests = []

/-- R58: commands take effect in the order the host presents them, one a step (log entry 3). -/
def Obligations.CommandsTakeEffectInOrder : Prop :=
  ∀ (is : List Instr) (s : State),
    (∀ i ∈ is, i.wf = true) → s.requests = is.map (fun i => .command (encode i)) →
      Host.Core.run Sys2Proof.core is.length s = execAll is { s with requests := [] }

/-- R217: the block does nothing between commands. That a step with nothing presented leaves the state as it is is the
model's choice; log entry 3. -/
def Obligations.IdleStepChangesNothing : Prop :=
  ∀ s : State, s.requests = [] → step s = .next s

/-! ## Reset -/

/-- R240: when reset is asserted, every component takes its reset value; STATUS and RX_REMAIN then read 0. -/
def Obligations.ResetGivesEveryComponentItsValue : Prop :=
  (∀ (s : State) (rest : List Request), s.requests = .reset :: rest →
    step s = .next
      { s with
        requests := rest
        reg := { magic := 0x44535746, version := 1, maxPayload := Config.maxPayloadCap, crcAcc := 0xFFFFFFFF }
        rx := { state := .header, hdr := [], buf := [], remain := 0, lastErr := 0x00 } }) ∧
  State.reset.reg =
    { magic := 0x44535746, version := 1, maxPayload := Config.maxPayloadCap, crcAcc := 0xFFFFFFFF } ∧
  State.reset.rx = { state := .header, hdr := [], buf := [], remain := 0, lastErr := 0x00 } ∧
  readReg State.reset .status = 0 ∧ readReg State.reset .rxRemain = 0

/-- R241: a command presented together with reset is completed before the reset or not taken at all, by the draw (log
entry 2); in both cases the block is reset. That a completed packet's response is returned is DEDUCED (log entry 13). -/
def Obligations.CommandWithResetIsWholeOrDropped : Prop :=
  ∀ (s : State) (p : Bytes) (rest : List Request),
    s.requests = .commandWithReset p :: rest →
      ∃ t, step s = .next t ∧ t.reg = Regs.reset ∧ t.rx = Rx.reset ∧ t.requests = rest ∧ t.draws = s.draws + 1 ∧
        if Config.commandBeforeReset s.draws = true then
          ∃ u, step { s with requests := .command p :: rest } = .next u ∧ t.responses = u.responses
        else t.responses = s.responses

/-! ## The CRC generator -/

/-- R100: the step, bit by bit; the reflected polynomial; and the equal table form. The polynomial and "The two forms
are equal" are the spec's own inference, "[from general knowledge, not in source]" (R7, D5; log entry 8). -/
def Obligations.CrcStepEqualsItsTableForm : Prop :=
  (∀ (acc : U32) (b : Byte),
    crcStep acc b =
      (fun a : U32 => if a.getLsbD 0 = true then (a >>> 1) ^^^ 0xEDB88320 else a >>> 1)^[8]
        (acc ^^^ b.setWidth 32)) ∧
  (0x04C11DB7 : U32).reverse = 0xEDB88320 ∧
  ∀ (acc : U32) (b : Byte),
    crcStep acc b = crcStep 0 ((acc ^^^ b.setWidth 32).setWidth 8) ^^^ (acc >>> 8)

/-- R101: the CRC-32 of a byte sequence, and its values, which R101 gives as "derived by evaluating this rule". The
variant is the spec's own choice (R7, D5; log entry 8). -/
def Obligations.CrcOfASequenceAndItsValues : Prop :=
  (∀ m : Bytes, crc32 m = m.foldl crcStep 0xFFFFFFFF ^^^ 0xFFFFFFFF) ∧
  crc32 [] = 0x00000000 ∧ crc32 [0x00] = 0xD202EF8D ∧ crc32 [0xFF] = 0xFF000000 ∧ crc32 [0x61] = 0xE8B7BE43 ∧
  crc32 [0, 0, 0, 0] = 0x2144DF1C ∧
  crc32 [0x31, 0x32, 0x33, 0x34, 0x35, 0x36, 0x37, 0x38, 0x39] = 0xCBF43926

/-- R102: CRC_INIT sets CRC_ACC and changes nothing else. -/
def Obligations.CrcInitSetsTheAccumulator : Prop :=
  ∀ s : State,
    exec .crcInit s =
      .next { s with reg := { s.reg with crcAcc := 0xFFFFFFFF }, responses := s.responses ++ [[0x00]] }

/-- R103: CRC_BYTE folds one byte and changes nothing else. -/
def Obligations.CrcByteFoldsOneByte : Prop :=
  ∀ (b : Byte) (s : State),
    exec (.crcByte b) s =
      .next { s with reg := { s.reg with crcAcc := crcStep s.reg.crcAcc b }, responses := s.responses ++ [[0x00]] }

/-- R103's corner case: folding a zero byte leaves only the accumulator 0 as it is. -/
def Obligations.ZeroByteFixesOnlyTheZeroAccumulator : Prop :=
  ∀ acc : U32, crcStep acc 0x00 = acc ↔ acc = 0

/-- R104: CRC_BLOCK folds its bytes in order and changes nothing else. -/
def Obligations.CrcBlockFoldsItsBytes : Prop :=
  ∀ (m : Bytes) (s : State),
    exec (.crcBlock m) s =
      .next { s with reg := { s.reg with crcAcc := m.foldl crcStep s.reg.crcAcc },
                     responses := s.responses ++ [[0x00]] }

/-- "The effect equals L CRC_BYTE commands in order", the spec's own inference in R104, from R100 and R103. -/
def Obligations.CrcBlockEqualsItsCrcBytes : Prop :=
  ∀ (m : Bytes) (s : State),
    ∃ t u, exec (.crcBlock m) s = .next t ∧ execAll (m.map Instr.crcByte) s = .next u ∧ u.reg = t.reg ∧ u.rx = t.rx ∧
      u.responses = s.responses ++ List.replicate m.length [0x00]

/-- R105: CRC_READ returns the accumulator after the final XOR and changes nothing. -/
def Obligations.CrcReadReturnsTheCrc : Prop :=
  ∀ s : State,
    exec .crcRead s =
      .next { s with responses := s.responses ++ [0x00 :: leBytes 4 (s.reg.crcAcc ^^^ 0xFFFFFFFF).toNat] }

/-- After CRC_INIT, however the bytes are split between CRC_BYTE and CRC_BLOCK commands, CRC_READ returns the CRC-32 of
them all: the spec's own inference, R106 (a), from R100 to R105. -/
def Obligations.CrcDoesNotDependOnTheSplit : Prop :=
  ∀ (cs : List (Byte ⊕ Bytes)) (s : State),
    ∃ t, execAll (.crcInit :: (cs.map crcCommand ++ [.crcRead])) s = .next t ∧
      t.responses.getLast? = some (0x00 :: leBytes 4 (crc32 (cs.flatMap crcChunk)).toNat)

/-- The value CFG_READ gives for CRC_ACC, written back by CFG_WRITE to any later state, restores the computation: the
spec's own inference, R106 (b), from R190 and R191. -/
def Obligations.CrcCanBeSuspendedAndResumed : Prop :=
  ∀ s u : State,
    ∃ v : U64,
      exec (.cfgRead 0x03) s = .next { s with responses := s.responses ++ [0x00 :: leBytes 8 v.toNat] } ∧
      exec (.cfgWrite 0x03 v) u =
        .next { u with reg := { u.reg with crcAcc := s.reg.crcAcc }, responses := u.responses ++ [[0x00]] }

/-- Flipping one bit of a sequence changes its CRC-32: the spec's own inference, R106 (c), from R100 and R101. -/
def Obligations.SingleBitFlipChangesTheCrc : Prop :=
  ∀ (m : Bytes) (k j : Nat), k < m.length → j < 8 → crc32 (flipBit m k j) ≠ crc32 m

/-! ## The formatter -/

/-- R120, R121: ENCODE answers the frame, or PAYLOAD_TOO_LARGE for a payload longer than MAX_PAYLOAD, and writes no
state. -/
def Obligations.EncodeFormatsTheFrame : Prop :=
  ∀ (seq : U64) (flags : U16) (payload : Bytes) (s : State),
    let fields := leBytes 4 s.reg.magic.toNat ++ leBytes 2 s.reg.version.toNat ++ leBytes 2 flags.toNat ++
      leBytes 8 seq.toNat ++ leBytes 8 payload.length ++ leBytes 8 0
    exec (.encodeFrame seq flags payload) s =
      .next { s with responses := s.responses ++
        [if s.reg.maxPayload.toNat < payload.length then [0x12]
         else 0x00 :: (fields ++ leBytes 4 (crc32 (fields ++ [0, 0, 0, 0] ++ payload)).toNat ++ payload)] }

/-- The frame of ENCODE decodes to itself, and its fields are the operands and the configuration: the round trip of
R123, the spec's own inference from R120 and R140. -/
def Obligations.EncodedFrameDecodesToItself : Prop :=
  ∀ (seq : U64) (flags : U16) (payload : Bytes) (s u : State),
    payload.length ≤ s.reg.maxPayload.toNat →
    u.reg.magic = s.reg.magic → u.reg.version = s.reg.version → u.reg.maxPayload = s.reg.maxPayload →
      ∃ f : Bytes,
        exec (.encodeFrame seq flags payload) s = .next { s with responses := s.responses ++ [0x00 :: f] } ∧
        exec (.decodeFrame f) u = .next { u with responses := u.responses ++ [0x03 :: f] } ∧
        (readFrame f).magic = s.reg.magic ∧ (readFrame f).version = s.reg.version ∧ (readFrame f).flags = flags ∧
        (readFrame f).sequence = seq ∧ (readFrame f).payloadSize.toNat = payload.length ∧
        (readFrame f).reserved = 0 ∧ (readFrame f).payload = payload

/-- The agreement R245 speaks of, the spec's own inference from R120 and R140: a consumer whose MAGIC equals the
producer's, whose VERSION is at least the producer's and whose MAX_PAYLOAD is at least the payload's length accepts the
producer's frame; any other rejects it, with the code of the first disagreement. -/
def Obligations.ConsumerAcceptsWhenTheConfigurationsAgree : Prop :=
  ∀ (seq : U64) (flags : U16) (payload f : Bytes) (s u : State),
    exec (.encodeFrame seq flags payload) s = .next { s with responses := s.responses ++ [0x00 :: f] } →
      exec (.decodeFrame f) u =
        .next { u with responses := u.responses ++
          [if u.reg.magic ≠ s.reg.magic then [0x10]
           else if u.reg.version < s.reg.version then [0x11]
           else if u.reg.maxPayload.toNat < payload.length then [0x12]
           else 0x03 :: f] }

/-! ## The whole-buffer parser -/

/-- R140 to R144: DECODE reports the first check that fails, in the order of R141, or the frame without the bytes that
follow it; it writes no state. -/
def Obligations.DecodeReportsTheFirstFailingCheck : Prop :=
  ∀ (buf : Bytes) (s : State),
    exec (.decodeFrame buf) s =
      .next { s with responses := s.responses ++
        [if buf.length < 36 then [0x10]
         else if leNat (buf.take 4) ≠ s.reg.magic.toNat then [0x10]
         else if s.reg.version.toNat < leNat ((buf.drop 4).take 2) then [0x11]
         else if s.reg.maxPayload.toNat < leNat ((buf.drop 16).take 8) then [0x12]
         else if buf.length < 36 + leNat ((buf.drop 16).take 8) then [0x12]
         else if (crc32 (buf.take 32 ++ [0, 0, 0, 0] ++ (buf.drop 36).take (leNat ((buf.drop 16).take 8)))).toNat ≠
             leNat ((buf.drop 32).take 4) then [0x13]
         else 0x03 :: buf.take (36 + leNat ((buf.drop 16).take 8))] }

/-- R51, R142, R143: the response depends on no byte after the frame, and on no payload byte when a header check fails
or the payload does not fit the buffer. -/
def Obligations.DecodeReadsNoByteOutsideTheFrame : Prop :=
  ∀ (a b : Bytes) (s t : State),
    36 ≤ a.length → 36 ≤ b.length → a.take 36 = b.take 36 →
    exec (.decodeFrame a) s = .next t →
      (a.length < 36 + leAt 8 a 16 → b.length < 36 + leAt 8 a 16 → exec (.decodeFrame b) s = .next t) ∧
      (36 + leAt 8 a 16 ≤ a.length → 36 + leAt 8 a 16 ≤ b.length →
        a.take (36 + leAt 8 a 16) = b.take (36 + leAt 8 a 16) → exec (.decodeFrame b) s = .next t) ∧
      ((leAt 4 a 0 ≠ s.reg.magic.toNat ∨ s.reg.version.toNat < leAt 2 a 4 ∨ s.reg.maxPayload.toNat < leAt 8 a 16) →
        exec (.decodeFrame b) s = .next t)

/-- An encoded frame with one bit flipped is rejected with the code of the field the bit lies in, except that for a
`payloadSize` flip whose new size exceeds neither MAX_PAYLOAD nor the buffer only this is said, that the new size is
smaller; R145 does not exclude FRAME there. The classification is the spec's own inference, R145, from R140, R141 and
R106. -/
def Obligations.SingleBitCorruptionIsClassified : Prop :=
  ∀ (seq : U64) (flags : U16) (payload f : Bytes) (s : State) (k j : Nat),
    exec (.encodeFrame seq flags payload) s = .next { s with responses := s.responses ++ [0x00 :: f] } →
    k < f.length → j < 8 →
      ∃ r : Bytes,
        exec (.decodeFrame (flipBit f k j)) s = .next { s with responses := s.responses ++ [r] } ∧
        (k < 4 → r = [0x10]) ∧
        (4 ≤ k → k < 6 → r = if s.reg.version.toNat < leAt 2 (flipBit f k j) 4 then [0x11] else [0x13]) ∧
        (6 ≤ k → k < 16 → r = [0x13]) ∧
        (16 ≤ k → k < 24 →
          if s.reg.maxPayload.toNat < leAt 8 (flipBit f k j) 16 ∨ f.length - 36 < leAt 8 (flipBit f k j) 16 then
            r = [0x12]
          else leAt 8 (flipBit f k j) 16 < leAt 8 f 16) ∧
        (24 ≤ k → r = [0x13])

/-! ## The byte-serial parser -/

/-- R166: RX_START puts the parser at a frame boundary and clears the error record. -/
def Obligations.RxStartBeginsAtAFrameBoundary : Prop :=
  ∀ s : State,
    exec .rxStart s =
      .next { s with rx := { state := .header, hdr := [], buf := [], remain := 0, lastErr := 0x00 },
                     responses := s.responses ++ [[0x00]] }

/-- R167: RX_EOS closes the parser in every state and keeps the error record. -/
def Obligations.RxEosClosesInEveryState : Prop :=
  ∀ s : State,
    exec .rxEos s =
      .next { s with rx := { state := .closed, hdr := [], buf := [], remain := 0, lastErr := s.rx.lastErr },
                     responses := s.responses ++ [[0x20]] }

/-- R161: RX_BYTE in HEADER before the 36th byte only collects the byte. -/
def Obligations.RxByteCollectsTheHeader : Prop :=
  ∀ (b : Byte) (s : State), s.rx.state = .header → s.rx.hdr.length < 35 →
    exec (.rxByte b) s =
      .next { s with rx := { s.rx with hdr := s.rx.hdr ++ [b] }, responses := s.responses ++ [[0x01]] }

/-- R161, R163, R164: RX_BYTE with the 36th header byte validates the header: magic, version, size, and for an empty
payload the CRC. -/
def Obligations.RxByteValidatesTheHeaderAtItsLastByte : Prop :=
  ∀ (b : Byte) (s : State), s.rx.state = .header → s.rx.hdr.length = 35 → s.rx.buf = [] →
    let h := s.rx.hdr ++ [b]
    let size := leNat ((h.drop 16).take 8)
    exec (.rxByte b) s =
      .next
        (if leNat (h.take 4) ≠ s.reg.magic.toNat then droppedFrame 0x10 s
         else if s.reg.version.toNat < leNat ((h.drop 4).take 2) then droppedFrame 0x11 s
         else if s.reg.maxPayload.toNat < size then droppedFrame 0x12 s
         else if size = 0 then
           if (crc32 (h.take 32 ++ [0, 0, 0, 0])).toNat = leNat ((h.drop 32).take 4) then deliveredFrame h s
           else droppedFrame 0x13 s
         else
           { s with
             rx := { s.rx with state := .payload, hdr := h, remain := BitVec.ofNat 64 size }
             responses := s.responses ++ [0x02 :: leBytes 8 size] })

/-- R162, R163, R164: RX_BYTE in PAYLOAD collects the byte, and at the last one checks the CRC. -/
def Obligations.RxByteChecksTheCrcAtTheLastPayloadByte : Prop :=
  ∀ (b : Byte) (s : State), s.rx.state = .payload → s.rx.hdr.length = 36 → 1 ≤ s.rx.remain.toNat →
    exec (.rxByte b) s =
      .next
        (if 1 < s.rx.remain.toNat then
           { s with
             rx := { s.rx with buf := s.rx.buf ++ [b], remain := BitVec.ofNat 64 (s.rx.remain.toNat - 1) }
             responses := s.responses ++ [[0x01]] }
         else if (crc32 (s.rx.hdr.take 32 ++ [0, 0, 0, 0] ++ (s.rx.buf ++ [b]))).toNat =
             leNat ((s.rx.hdr.drop 32).take 4) then
           deliveredFrame (s.rx.hdr ++ (s.rx.buf ++ [b])) s
         else droppedFrame 0x13 s)

/-- R170: RX_BYTE in RESYNC slides the window: a window of four bytes that equals MAGIC's becomes the first four header
bytes; every response is NEED_MORE. -/
def Obligations.RxByteSlidesTheSearchWindow : Prop :=
  ∀ (b : Byte) (s : State), s.rx.state = .resync → s.rx.hdr.length ≤ 3 →
    exec (.rxByte b) s =
      .next
        { s with
          rx :=
            if s.rx.hdr.length < 3 then { s.rx with hdr := s.rx.hdr ++ [b] }
            else if s.rx.hdr ++ [b] = leBytes 4 s.reg.magic.toNat then
              { s.rx with state := .header, hdr := s.rx.hdr ++ [b] }
            else { s.rx with hdr := s.rx.hdr.drop 1 ++ [b] }
          responses := s.responses ++ [[0x01]] }

/-- R165: RX_BYTE in CLOSED answers CLOSED and changes nothing, and only RX_START or reset leaves CLOSED. -/
def Obligations.OnlyRestartLeavesClosed : Prop :=
  (∀ (b : Byte) (s : State), s.rx.state = .closed →
    exec (.rxByte b) s = .next { s with responses := s.responses ++ [[0x20]] }) ∧
  ∀ s t : State, s.rx.state = .closed → step s = .next t → t.rx.state ≠ .closed →
    (∃ rest, s.requests = .reset :: rest) ∨ (∃ p rest, s.requests = .commandWithReset p :: rest) ∨
      ∃ rest, s.requests = .command [0x30] :: rest

/-- R34: `rx.last_err` records each error an RX_BYTE returns, is kept by every other packet, illegal ones among them,
and is cleared only by RX_START and reset. -/
def Obligations.LastErrIsSticky : Prop :=
  (∀ (b : Byte) (s : State), ∃ t c d, exec (.rxByte b) s = .next t ∧ t.responses = s.responses ++ [c :: d] ∧
    t.rx.lastErr = if c.toNat ∈ [0x10, 0x11, 0x12, 0x13] then c else s.rx.lastErr) ∧
  (∀ s : State, ∃ t, exec .rxStart s = .next t ∧ t.rx.lastErr = 0x00) ∧
  (∀ (i : Instr) (s : State), i ≠ .rxStart → (∀ b, i ≠ .rxByte b) →
    ∃ t, exec i s = .next t ∧ t.rx.lastErr = s.rx.lastErr) ∧
  (∀ (s : State) (p : Bytes) (rest : List Request), s.requests = .command p :: rest →
    (∀ i, decode p ≠ .command i) → ∃ t, step s = .next t ∧ t.rx.lastErr = s.rx.lastErr) ∧
  (∀ (s : State) (rest : List Request), s.requests = .reset :: rest →
    ∃ t, step s = .next t ∧ t.rx.lastErr = 0x00) ∧
  State.reset.rx.lastErr = 0x00

/-- R168, R247: before the 36th header byte, and after a header has been accepted, RX_BYTE does not read the
configuration, so an accepted size is not checked again. -/
def Obligations.AcceptedSizeIsNotCheckedAgain : Prop :=
  ∀ (b : Byte) (s : State) (reg : Regs),
    (s.rx.state = .payload ∨ (s.rx.state = .header ∧ s.rx.hdr.length < 35)) →
      ∃ t, exec (.rxByte b) s = .next t ∧ exec (.rxByte b) { s with reg := reg } = .next { t with reg := reg }

/-- R143, R163: every FRAME response, from DECODE or from the stream, carries a whole frame whose CRC is good; for the
stream this is the spec's own inference "Every FRAME response is a frame that passed every check" (R171). -/
def Obligations.EveryFrameResponseIsAGoodFrame : Prop :=
  ∀ (i : Instr) (s t : State) (f : Bytes),
    s.Inv → exec i s = .next t → t.responses = s.responses ++ [0x03 :: f] →
      f.length = 36 + leNat ((f.drop 16).take 8) ∧
      (crc32 (f.take 32 ++ [0, 0, 0, 0] ++ f.drop 36)).toNat = leNat ((f.drop 32).take 4)

/-- Frames fed back to back from a frame boundary, each the output of ENCODE under the current configuration, are
returned one by one, each at its own last byte; every other response is NEED_MORE or HEADER_OK: the spec's own inference,
R169, from R161 to R163 and R140. -/
def Obligations.StreamOfFramesIsParsedFrameByFrame : Prop :=
  ∀ (frames : List ((U64 × U16 × Bytes) × Bytes)) (s : State),
    s.rx.AtBoundary →
    (∀ x ∈ frames, exec (.encodeFrame x.1.1 x.1.2.1 x.1.2.2) s =
      .next { s with responses := s.responses ++ [0x00 :: x.2] }) →
      feed (frames.flatMap Prod.snd) s =
        .next { s with responses := s.responses ++ frames.flatMap (fun x => frameResponses x.2 x.1.2.2.length) }

/-- From a frame boundary, the last byte of any byte sequence is answered FRAME with that sequence exactly when DECODE
of the sequence is: the spec's own inference, "More generally …" in R169, from R161 to R163 and R140. -/
def Obligations.StreamAcceptsWhatDecodeAccepts : Prop :=
  ∀ (f : Bytes) (s : State), s.rx.AtBoundary →
    ∃ t rs, feed f s = .next t ∧ t.responses = s.responses ++ rs ∧ rs.length = f.length ∧
      (rs.getLast? = some (0x03 :: f) ↔
        exec (.decodeFrame f) s = .next { s with responses := s.responses ++ [0x03 :: f] })

/-- R170: from an empty window, the scan passes over every byte until the first occurrence of MAGIC's bytes and then
continues in HEADER with those four bytes; every response is NEED_MORE. -/
def Obligations.ResyncFindsTheFirstMagic : Prop :=
  ∀ (xs : Bytes) (s : State), s.rx.state = .resync → s.rx.hdr = [] →
    let magic := leBytes 4 s.reg.magic.toNat
    (¬ magic <:+: xs →
      feed xs s =
        .next { s with rx := { s.rx with hdr := xs.drop (xs.length - 3) },
                       responses := s.responses ++ List.replicate xs.length [0x01] }) ∧
    (magic <:+ xs → ¬ magic <:+: xs.dropLast →
      feed xs s =
        .next { s with rx := { s.rx with state := .header, hdr := magic },
                       responses := s.responses ++ List.replicate xs.length [0x01] })

/-! ## Registers -/

/-- R22, R28, R190: CFG_READ answers the register's value zero-extended to 64 bits, and ILLEGAL_COMMAND for a reserved
number; it changes nothing. HDR_COUNT is a field of STATUS for the 0 to 36 header bytes of R31. -/
def Obligations.CfgReadReturnsTheRegister : Prop :=
  ∀ (r : Byte) (s : State), s.rx.hdr.length ≤ 36 →
    exec (.cfgRead r) s =
      .next { s with responses := s.responses ++
        [if r.toNat = 0x00 then 0x00 :: leBytes 8 s.reg.magic.toNat
         else if r.toNat = 0x01 then 0x00 :: leBytes 8 s.reg.version.toNat
         else if r.toNat = 0x02 then 0x00 :: leBytes 8 s.reg.maxPayload.toNat
         else if r.toNat = 0x03 then 0x00 :: leBytes 8 s.reg.crcAcc.toNat
         else if r.toNat = 0x04 then 0x00 :: leBytes 8 Config.maxPayloadCap.toNat
         else if r.toNat = 0x10 then
           0x00 :: leBytes 8 ((match s.rx.state with | .header => 0 | .payload => 1 | .resync => 2 | .closed => 3) +
             2 ^ 8 * s.rx.lastErr.toNat + 2 ^ 16 * s.rx.hdr.length)
         else if r.toNat = 0x11 then 0x00 :: leBytes 8 s.rx.remain.toNat
         else [0x30]] }

/-- R22, R25, R191: CFG_WRITE keeps the low bits of a read/write register, clamps MAX_PAYLOAD, and answers
ILLEGAL_COMMAND, writing nothing, for a read-only or reserved number. -/
def Obligations.CfgWriteStoresTheRegister : Prop :=
  ∀ (r : Byte) (v : U64) (s : State),
    exec (.cfgWrite r v) s =
      .next
        (if r.toNat = 0x00 then
           { s with reg := { s.reg with magic := BitVec.ofNat 32 v.toNat }, responses := s.responses ++ [[0x00]] }
         else if r.toNat = 0x01 then
           { s with reg := { s.reg with version := BitVec.ofNat 16 v.toNat }, responses := s.responses ++ [[0x00]] }
         else if r.toNat = 0x02 then
           { s with
             reg := { s.reg with maxPayload := BitVec.ofNat 64 (min v.toNat Config.maxPayloadCap.toNat) }
             responses := s.responses ++ [[0x00]] }
         else if r.toNat = 0x03 then
           { s with reg := { s.reg with crcAcc := BitVec.ofNat 32 v.toNat }, responses := s.responses ++ [[0x00]] }
         else { s with responses := s.responses ++ [[0x30]] })

/-- R36: reserved register numbers are refused for reading and writing, and the reserved bits of STATUS read 0 and
cannot be written. -/
def Obligations.ReservedRegistersAndBits : Prop :=
  (∀ (r : Byte) (v : U64) (s : State), r.toNat ∉ [0x00, 0x01, 0x02, 0x03, 0x04, 0x10, 0x11] →
    exec (.cfgRead r) s = .next { s with responses := s.responses ++ [[0x30]] } ∧
    exec (.cfgWrite r v) s = .next { s with responses := s.responses ++ [[0x30]] }) ∧
  (∀ s : State, s.rx.hdr.length ≤ 36 →
    (readReg s .status).extractLsb 7 2 = 0 ∧ (readReg s .status).extractLsb 63 22 = 0) ∧
  ∀ (v : U64) (s : State), exec (.cfgWrite 0x10 v) s = .next { s with responses := s.responses ++ [[0x30]] }

/-- R27, R29: MAX_PAYLOAD_CAP reads as the parameter, RX_REMAIN as the bytes to come, nonzero only in PAYLOAD; a write
to either is refused and changes nothing. -/
def Obligations.CapAndRemainAreReadOnlyViews : Prop :=
  ∀ (s : State) (v : U64),
    exec (.cfgRead 0x04) s =
      .next { s with responses := s.responses ++ [0x00 :: leBytes 8 Config.maxPayloadCap.toNat] } ∧
    exec (.cfgWrite 0x04 v) s = .next { s with responses := s.responses ++ [[0x30]] } ∧
    exec (.cfgRead 0x11) s = .next { s with responses := s.responses ++ [0x00 :: leBytes 8 s.rx.remain.toNat] } ∧
    exec (.cfgWrite 0x11 v) s = .next { s with responses := s.responses ++ [[0x30]] } ∧
    (s.Inv → s.rx.remain ≠ 0 → s.rx.state = .payload)

/-- R87: the pseudo-commands, by the responses and the state their expansions give. -/
def Obligations.PseudoCommandsExpand : Prop :=
  (∀ (bs : Bytes) (s : State),
    ∃ t rs, execAll (expand (.rxFeed bs)) s = .next t ∧ feed bs s = .next t ∧ t.responses = s.responses ++ rs ∧
      rs.length = bs.length) ∧
  (∀ (m : Bytes) (s : State),
    execAll (expand (.crcOf m)) s =
      .next { s with reg := { s.reg with crcAcc := m.foldl crcStep 0xFFFFFFFF },
                     responses := s.responses ++ [[0x00], [0x00], 0x00 :: leBytes 4 (crc32 m).toNat] }) ∧
  ∀ s : State,
    execAll (expand .cfgDefaults) s =
      .next { s with reg := { s.reg with magic := 0x44535746, version := 1, maxPayload := Config.maxPayloadCap },
                     responses := s.responses ++ [[0x00], [0x00], [0x00]] }

/-! ## What commands leave alone -/

/-- The reading commands have no side effect and give the same response again; CRC_INIT, RX_START, RX_EOS and CFG_WRITE
are idempotent: the spec's own inference, R60, from the command rules. -/
def Obligations.RepeatedCommandsChangeNothingMore : Prop :=
  (∀ (i : Instr) (s : State), readsOnly i = true →
    ∃ r : Bytes, exec i s = .next { s with responses := s.responses ++ [r] } ∧
      exec i { s with responses := s.responses ++ [r] } = .next { s with responses := s.responses ++ [r] ++ [r] }) ∧
  ∀ (i : Instr) (s : State), consumesInput i = false →
    ∃ t r, exec i s = .next t ∧ t.responses = s.responses ++ [r] ∧
      exec i t = .next { t with responses := t.responses ++ [r] }

/-- R35: which commands may change which component. -/
def Obligations.EachComponentHasItsOwnWriters : Prop :=
  ∀ (i : Instr) (s : State),
    ∃ t, exec i s = .next t ∧ t.requests = s.requests ∧ t.draws = s.draws ∧
      (familyOf i ≠ .rx → t.rx = s.rx) ∧
      (familyOf i = .rx → t.reg = s.reg) ∧
      (familyOf i = .frame → t.reg = s.reg) ∧
      (t.reg.crcAcc ≠ s.reg.crcAcc → familyOf i = .crc ∨ ∃ v, i = .cfgWrite 0x03 v) ∧
      (t.reg.magic ≠ s.reg.magic → ∃ v, i = .cfgWrite 0x00 v) ∧
      (t.reg.version ≠ s.reg.version → ∃ v, i = .cfgWrite 0x01 v) ∧
      (t.reg.maxPayload ≠ s.reg.maxPayload → ∃ v, i = .cfgWrite 0x02 v)

/-- R26, R35: ENCODE, DECODE and the RX commands never read CRC_ACC; ENCODE, DECODE and the CRC commands never read the
parser; the CRC commands never read the configuration registers. -/
def Obligations.DatapathsAreIndependent : Prop :=
  (∀ (i : Instr) (s : State) (acc : U32), familyOf i = .frame ∨ familyOf i = .rx →
    ∃ t, exec i s = .next t ∧
      exec i { s with reg := { s.reg with crcAcc := acc } } = .next { t with reg := { t.reg with crcAcc := acc } }) ∧
  (∀ (i : Instr) (s : State) (rx : Rx), familyOf i = .frame ∨ familyOf i = .crc →
    ∃ t, exec i s = .next t ∧ exec i { s with rx := rx } = .next { t with rx := rx }) ∧
  ∀ (i : Instr) (s : State) (magic : U32) (version : U16) (maxPayload : U64), familyOf i = .crc →
    ∃ t, exec i s = .next t ∧
      exec i { s with reg := { s.reg with magic := magic, version := version, maxPayload := maxPayload } } =
        .next { t with reg := { t.reg with magic := magic, version := version, maxPayload := maxPayload } }

/-! ## Invariants -/

/-- The state right after reset meets the invariant of R38, and its payload buffer is within the capacity. The
invariant is the spec's own inference from R30 to R34 and the transition rules. -/
def Obligations.ResetMeetsTheInvariant : Prop :=
  State.reset.Inv ∧ State.reset.rx.WithinCapacity

/-- Every step keeps the invariant of R38, from every state that meets it. The invariant is the spec's own inference
from R30 to R34 and the transition rules. -/
def Obligations.StepKeepsTheParserInvariant : Prop :=
  ∀ s t : State, s.Inv → step s = .next t → t.Inv

/-- Every state the block reaches from reset, whatever the host presents and resets among it, meets the invariant of
R38, the spec's own inference "Invariants that every reachable state satisfies". -/
def Obligations.ReachableStatesMeetTheInvariant : Prop :=
  ∀ (requests : List Request) (n : Nat) (t : State),
    Host.Core.run Sys2Proof.core n { State.reset with requests := requests } = .next t → t.Inv

/-- R20, R32: every step keeps the frame in progress, and so the payload buffer, within MAX_PAYLOAD_CAP bytes. -/
def Obligations.PayloadBufferNeverOverflows : Prop :=
  ∀ s t : State, s.Inv → s.rx.WithinCapacity → step s = .next t →
    t.rx.WithinCapacity ∧ t.rx.buf.length ≤ Config.maxPayloadCap.toNat
end

