-- ==== Sys2Proof/Laws/Bytes.lean ====
section
/-! SUPPORT. The little-endian integers and the slices of R9 and R10: lengths, bounds, and the two round trips. -/

namespace Sys2Proof.Machine

open Sys2Proof

@[simp] theorem leNat_nil : leNat [] = 0 := rfl
@[simp] theorem leNat_cons (b : Byte) (bs : Bytes) : leNat (b :: bs) = b.toNat + 256 * leNat bs := rfl
@[simp] theorem leBytes_zero (v : Nat) : leBytes 0 v = [] := rfl
theorem leBytes_succ (n v : Nat) : leBytes (n + 1) v = BitVec.ofNat 8 v :: leBytes n (v / 256) := rfl

@[simp] theorem length_leBytes (n v : Nat) : (leBytes n v).length = n := by
  induction n generalizing v with
  | zero => rfl
  | succ n ih => simp [leBytes_succ, ih]

@[simp] theorem length_zeros (n : Nat) : (zeros n).length = n := List.length_replicate

/-- A sequence of `n` bytes is a number below 256^n. -/
theorem leNat_lt (bs : Bytes) : leNat bs < 256 ^ bs.length := by
  induction bs with
  | nil => simp
  | cons b bs ih =>
    have hb := b.isLt
    simp only [leNat_cons, List.length_cons, pow_succ]
    omega

/-- `bytes_N(v)` holds `v mod 2^(8N)` (R10). -/
theorem leNat_leBytes (n v : Nat) : leNat (leBytes n v) = v % 256 ^ n := by
  induction n generalizing v with
  | zero => simp [Nat.mod_one]
  | succ n ih =>
    rw [leBytes_succ, leNat_cons, ih, BitVec.toNat_ofNat, pow_succ' 256 n]
    exact Nat.mod_mul.symm

theorem leNat_leBytes_of_lt {n v : Nat} (h : v < 256 ^ n) : leNat (leBytes n v) = v := by
  rw [leNat_leBytes, Nat.mod_eq_of_lt h]

/-- A byte sequence is the encoding of its value in its own length. -/
theorem leBytes_leNat (bs : Bytes) : leBytes bs.length (leNat bs) = bs := by
  induction bs with
  | nil => rfl
  | cons b bs ih =>
    have hb := b.isLt
    have h1 : (b.toNat + 256 * leNat bs) / 256 = leNat bs := by omega
    have h2 : BitVec.ofNat 8 (b.toNat + 256 * leNat bs) = b := by
      apply BitVec.eq_of_toNat_eq
      simp only [BitVec.toNat_ofNat]
      omega
    simp only [List.length_cons, leBytes_succ, leNat_cons, h1, h2, ih]

theorem leBytes_leNat_of_length {n : Nat} {bs : Bytes} (h : bs.length = n) : leBytes n (leNat bs) = bs := by
  subst h; exact leBytes_leNat bs

theorem leBytes_injective {n v w : Nat} (hv : v < 256 ^ n) (hw : w < 256 ^ n) (h : leBytes n v = leBytes n w) :
    v = w := by
  rw [← leNat_leBytes_of_lt hv, ← leNat_leBytes_of_lt hw, h]

/-! ## Slices -/

theorem slice_eq (buf : Bytes) (a n : Nat) : slice buf a (a + n) = (buf.drop a).take n := by
  simp [slice]

theorem slice_zero (buf : Bytes) (n : Nat) : slice buf 0 n = buf.take n := by simp [slice]

theorem leAt_eq (n : Nat) (buf : Bytes) (off : Nat) : leAt n buf off = leNat ((buf.drop off).take n) := by
  simp [leAt, slice]

/-- A field of `n` bytes is a number below 256^n, whatever the buffer. -/
theorem leAt_lt (n : Nat) (buf : Bytes) (off : Nat) : leAt n buf off < 256 ^ n := by
  rw [leAt_eq]
  refine (leNat_lt _).trans_le (Nat.pow_le_pow_right (by norm_num) ?_)
  simp

/-- A field lies after the bytes before it. -/
theorem leAt_append_right (n : Nat) (pre buf : Bytes) (off : Nat) (h : pre.length = off) :
    leAt n (pre ++ buf) off = leNat (buf.take n) := by
  subst h; simp [leAt_eq]

/-- A field depends only on the bytes up to its end. -/
theorem leAt_append_left (n : Nat) (buf post : Bytes) (off : Nat) (h : off + n ≤ buf.length) :
    leAt n (buf ++ post) off = leAt n buf off := by
  simp only [leAt_eq]
  rw [List.drop_append_of_le_length (by omega), List.take_append_of_le_length (by simp; omega)]

/-- A field depends only on the bytes up to its end. -/
theorem leAt_congr_take {n off k : Nat} {a b : Bytes} (h : a.take k = b.take k) (hk : off + n ≤ k) :
    leAt n a off = leAt n b off := by
  have key : ∀ c : Bytes, (c.drop off).take n = ((c.take k).drop off).take n := by
    intro c
    rw [List.drop_take, List.take_take, Nat.min_eq_left (by omega)]
  rw [leAt_eq, leAt_eq, key a, key b, h]

/-! ## Fields of a frame -/

@[simp] theorem toNat_magicOf (f : Bytes) : (magicOf f).toNat = leAt 4 f 0 := by
  have := leAt_lt 4 f 0
  simp only [magicOf, BitVec.toNat_ofNat]; omega

@[simp] theorem toNat_versionOf (f : Bytes) : (versionOf f).toNat = leAt 2 f 4 := by
  have := leAt_lt 2 f 4
  simp only [versionOf, BitVec.toNat_ofNat]; omega

@[simp] theorem toNat_flagsOf (f : Bytes) : (flagsOf f).toNat = leAt 2 f 6 := by
  have := leAt_lt 2 f 6
  simp only [flagsOf, BitVec.toNat_ofNat]; omega

@[simp] theorem toNat_sequenceOf (f : Bytes) : (sequenceOf f).toNat = leAt 8 f 8 := by
  have := leAt_lt 8 f 8
  simp only [sequenceOf, BitVec.toNat_ofNat]; omega

@[simp] theorem toNat_payloadSizeOf (f : Bytes) : (payloadSizeOf f).toNat = leAt 8 f 16 := by
  have := leAt_lt 8 f 16
  simp only [payloadSizeOf, BitVec.toNat_ofNat]; omega

@[simp] theorem toNat_reservedOf (f : Bytes) : (reservedOf f).toNat = leAt 8 f 24 := by
  have := leAt_lt 8 f 24
  simp only [reservedOf, BitVec.toNat_ofNat]; omega

@[simp] theorem toNat_crcFieldOf (f : Bytes) : (crcFieldOf f).toNat = leAt 4 f 32 := by
  have := leAt_lt 4 f 32
  simp only [crcFieldOf, BitVec.toNat_ofNat]; omega

end Sys2Proof.Machine
end

