-- ==== Sys2Proof/Laws/Checksum.lean ====
section
/-! SUPPORT. The CRC step is linear over exclusive or and never merges two accumulators (R100). -/

namespace Sys2Proof.Machine

open Sys2Proof

@[simp] theorem crcFold_nil (a : U32) : crcFold a [] = a := rfl
@[simp] theorem crcFold_cons (a : U32) (b : Byte) (m : Bytes) : crcFold a (b :: m) = crcFold (crcStep a b) m := rfl

/-- Folding two sequences one after the other folds their concatenation (R104). -/
theorem crcFold_append (a : U32) (m n : Bytes) : crcFold a (m ++ n) = crcFold (crcFold a m) n := List.foldl_append

/-- The bit step of an exclusive or is the exclusive or of the bit steps. -/
theorem crcBit_xor (a b : U32) : crcBit (a ^^^ b) = crcBit a ^^^ crcBit b := by
  have cancel : ∀ x y p : U32, x ^^^ y = (x ^^^ p) ^^^ (y ^^^ p) := by
    intro x y p
    rw [BitVec.xor_assoc, BitVec.xor_comm y p, ← BitVec.xor_assoc p, BitVec.xor_self, BitVec.zero_xor]
  simp only [crcBit, BitVec.getLsbD_xor, BitVec.ushiftRight_xor_distrib]
  cases a.getLsbD 0 <;> cases b.getLsbD 0 <;> simp only [Bool.xor_false, Bool.xor_true, Bool.not_true,
    Bool.not_false, if_true, Bool.false_eq_true, if_false]
  · ac_rfl
  · ac_rfl
  · exact cancel _ _ _

theorem crcBits_xor (n : Nat) (a b : U32) : crcBits n (a ^^^ b) = crcBits n a ^^^ crcBits n b := by
  induction n generalizing a b with
  | zero => rfl
  | succ n ih => simp only [crcBits, crcBit_xor, ih]

@[simp] theorem crcBit_zero : crcBit 0 = 0 := by decide

@[simp] theorem crcBits_zero (n : Nat) : crcBits n 0 = 0 := by
  induction n with
  | zero => rfl
  | succ n ih => simp only [crcBits, crcBit_zero, ih]

/-- Only 0 steps to 0: the polynomial's top bit marks a step that folded it in. -/
theorem crcBit_eq_zero {a : U32} (h : crcBit a = 0) : a = 0 := by
  have top : ∀ i, (crcBit a).getLsbD i = false := by intro i; rw [h]; simp
  have h0 : a.getLsbD 0 = false := by
    by_contra hne
    have hset : a.getLsbD 0 = true := by simpa using hne
    have := top 31
    rw [crcBit, if_pos hset] at this
    simp [crcPolynomial] at this
  apply BitVec.eq_of_getLsbD_eq
  intro i hi
  rcases Nat.eq_zero_or_pos i with rfl | hpos
  · simpa using h0
  · have := top (i - 1)
    rw [crcBit, if_neg (by rw [h0]; decide)] at this
    simp only [BitVec.getLsbD_ushiftRight] at this
    rw [show 1 + (i - 1) = i by omega] at this
    simpa using this

theorem crcBits_eq_zero {n : Nat} {a : U32} (h : crcBits n a = 0) : a = 0 := by
  induction n generalizing a with
  | zero => exact h
  | succ n ih => exact crcBit_eq_zero (ih h)

/-- Two steps differ by the eight bit steps of what went into them. -/
theorem crcStep_xor (a b : U32) (x y : Byte) :
    crcStep a x ^^^ crcStep b y = crcBits 8 ((a ^^^ b) ^^^ (x ^^^ y).setWidth 32) := by
  rw [crcStep, crcStep, ← crcBits_xor, BitVec.setWidth_xor]
  congr 1
  ac_rfl

/-- For one byte, different accumulators stay different. -/
theorem crcStep_injective {a b : U32} {x : Byte} (h : crcStep a x = crcStep b x) : a = b := by
  have : crcBits 8 (a ^^^ b) = 0 := by
    have := crcStep_xor a b x x
    rw [h] at this
    simpa using this.symm
  simpa using crcBits_eq_zero this

theorem crcFold_injective {a b : U32} {m : Bytes} (h : crcFold a m = crcFold b m) : a = b := by
  induction m generalizing a b with
  | nil => exact h
  | cons x m ih => exact crcStep_injective (ih h)

end Sys2Proof.Machine
end

