-- ==== Sys2Proof/Laws/State.lean ====
section
/-! SUPPORT. One lemma for each field and each update of the state, true by unfolding the update once, so that no
later proof unfolds a record update. -/

namespace Sys2Proof.Machine

open Sys2Proof

variable (s : State)

@[simp] theorem State.setReg_reg (r : Regs) : (s.setReg r).reg = r := rfl
@[simp] theorem State.setReg_rx (r : Regs) : (s.setReg r).rx = s.rx := rfl
@[simp] theorem State.setReg_requests (r : Regs) : (s.setReg r).requests = s.requests := rfl
@[simp] theorem State.setReg_responses (r : Regs) : (s.setReg r).responses = s.responses := rfl
@[simp] theorem State.setReg_draws (r : Regs) : (s.setReg r).draws = s.draws := rfl

@[simp] theorem State.setRx_reg (r : Rx) : (s.setRx r).reg = s.reg := rfl
@[simp] theorem State.setRx_rx (r : Rx) : (s.setRx r).rx = r := rfl
@[simp] theorem State.setRx_requests (r : Rx) : (s.setRx r).requests = s.requests := rfl
@[simp] theorem State.setRx_responses (r : Rx) : (s.setRx r).responses = s.responses := rfl
@[simp] theorem State.setRx_draws (r : Rx) : (s.setRx r).draws = s.draws := rfl

@[simp] theorem State.setCrcAcc_reg (a : U32) : (s.setCrcAcc a).reg = { s.reg with crcAcc := a } := rfl
@[simp] theorem State.setCrcAcc_rx (a : U32) : (s.setCrcAcc a).rx = s.rx := rfl
@[simp] theorem State.setCrcAcc_requests (a : U32) : (s.setCrcAcc a).requests = s.requests := rfl
@[simp] theorem State.setCrcAcc_responses (a : U32) : (s.setCrcAcc a).responses = s.responses := rfl
@[simp] theorem State.setCrcAcc_draws (a : U32) : (s.setCrcAcc a).draws = s.draws := rfl

@[simp] theorem respond_reg (st : Status) (d : Bytes) : (respond st d s).reg = s.reg := rfl
@[simp] theorem respond_rx (st : Status) (d : Bytes) : (respond st d s).rx = s.rx := rfl
@[simp] theorem respond_requests (st : Status) (d : Bytes) : (respond st d s).requests = s.requests := rfl
@[simp] theorem respond_responses (st : Status) (d : Bytes) :
    (respond st d s).responses = s.responses ++ [st.code :: d] := rfl
@[simp] theorem respond_draws (st : Status) (d : Bytes) : (respond st d s).draws = s.draws := rfl

@[simp] theorem raise_reg (e : Status) : (raise e s).reg = s.reg := rfl
@[simp] theorem raise_rx (e : Status) : (raise e s).rx = s.rx := rfl
@[simp] theorem raise_requests (e : Status) : (raise e s).requests = s.requests := rfl
@[simp] theorem raise_responses (e : Status) : (raise e s).responses = s.responses ++ [[e.code]] := rfl
@[simp] theorem raise_draws (e : Status) : (raise e s).draws = s.draws := rfl

@[simp] theorem State.resetBlock_reg : s.resetBlock.reg = Regs.reset := rfl
@[simp] theorem State.resetBlock_rx : s.resetBlock.rx = Rx.reset := rfl
@[simp] theorem State.resetBlock_requests : s.resetBlock.requests = s.requests := rfl
@[simp] theorem State.resetBlock_responses : s.resetBlock.responses = s.responses := rfl
@[simp] theorem State.resetBlock_draws : s.resetBlock.draws = s.draws := rfl

@[simp] theorem State.countDraw_reg : s.countDraw.reg = s.reg := rfl
@[simp] theorem State.countDraw_rx : s.countDraw.rx = s.rx := rfl
@[simp] theorem State.countDraw_requests : s.countDraw.requests = s.requests := rfl
@[simp] theorem State.countDraw_responses : s.countDraw.responses = s.responses := rfl
@[simp] theorem State.countDraw_draws : s.countDraw.draws = s.draws + 1 := rfl

@[simp] theorem State.setRequests_reg (q : List Request) : (s.setRequests q).reg = s.reg := rfl
@[simp] theorem State.setRequests_rx (q : List Request) : (s.setRequests q).rx = s.rx := rfl
@[simp] theorem State.setRequests_requests (q : List Request) : (s.setRequests q).requests = q := rfl
@[simp] theorem State.setRequests_responses (q : List Request) : (s.setRequests q).responses = s.responses := rfl
@[simp] theorem State.setRequests_draws (q : List Request) : (s.setRequests q).draws = s.draws := rfl

@[simp] theorem Rx.cleared_state (st : RxState) (e : Byte) : (Rx.cleared st e).state = st := rfl
@[simp] theorem Rx.cleared_hdr (st : RxState) (e : Byte) : (Rx.cleared st e).hdr = [] := rfl
@[simp] theorem Rx.cleared_buf (st : RxState) (e : Byte) : (Rx.cleared st e).buf = [] := rfl
@[simp] theorem Rx.cleared_remain (st : RxState) (e : Byte) : (Rx.cleared st e).remain = 0#64 := rfl
@[simp] theorem Rx.cleared_lastErr (st : RxState) (e : Byte) : (Rx.cleared st e).lastErr = e := rfl

end Sys2Proof.Machine
end

