-- ==== Sys2Proof/Laws/Ops.lean ====
section
/-! SUPPORT. For each shared operation, one lemma that says once everything it can do. -/

namespace Sys2Proof.Machine

open Sys2Proof

/-! ## Header checks -/

theorem headerError_eq_none {reg : Regs} {f : Bytes} :
    headerError reg f = none ↔
      magicOf f = reg.magic ∧ ¬ reg.version < versionOf f ∧ ¬ reg.maxPayload < payloadSizeOf f := by
  unfold headerError
  split
  · simp_all
  · split
    · simp_all
    · split <;> simp_all

/-- The header checks report the first that fails, in the order of R141. -/
theorem headerError_eq_some {reg : Regs} {f : Bytes} {e : Status} (h : headerError reg f = some e) :
    (e = .invalidHeader ∧ magicOf f ≠ reg.magic) ∨
    (e = .unsupportedVersion ∧ magicOf f = reg.magic ∧ reg.version < versionOf f) ∨
    (e = .payloadTooLarge ∧ magicOf f = reg.magic ∧ ¬ reg.version < versionOf f ∧
      reg.maxPayload < payloadSizeOf f) := by
  unfold headerError at h
  split at h
  · simp_all
  · split at h
    · simp_all
    · split at h <;> simp_all

/-- The header checks read the first 24 bytes only. -/
theorem headerError_congr {reg : Regs} {f g : Bytes} (h : f.take 36 = g.take 36) :
    headerError reg f = headerError reg g := by
  have h1 : magicOf f = magicOf g := by rw [magicOf, magicOf, leAt_congr_take h (by norm_num)]
  have h2 : versionOf f = versionOf g := by rw [versionOf, versionOf, leAt_congr_take h (by norm_num)]
  have h3 : payloadSizeOf f = payloadSizeOf g := by
    rw [payloadSizeOf, payloadSizeOf, leAt_congr_take h (by norm_num)]
  simp only [headerError, h1, h2, h3]

/-- DECODE finds nothing wrong exactly when every check of R140 passes. -/
theorem decodeError_eq_none {reg : Regs} {buf : Bytes} :
    decodeError reg buf = none ↔
      36 ≤ buf.length ∧ headerError reg buf = none ∧ 36 + (payloadSizeOf buf).toNat ≤ buf.length ∧
        crcGood buf (payloadOf buf) = true := by
  unfold decodeError headerLength
  by_cases h1 : buf.length < 36
  · rw [if_pos h1]
    exact ⟨fun h => by simp at h, fun h => absurd h1 (by omega)⟩
  · rw [if_neg h1]
    cases hh : headerError reg buf with
    | some e => simp
    | none =>
      by_cases h3 : buf.length < 36 + (payloadSizeOf buf).toNat
      · simp only [if_pos h3]
        exact ⟨fun h => by simp at h, fun h => absurd h3 (by omega)⟩
      · simp only [if_neg h3]
        cases hc : crcGood buf (payloadOf buf)
        · exact ⟨fun h => by simp at h, fun h => by simp at h⟩
        · exact ⟨fun _ => ⟨by omega, by simp, by omega, by simp⟩, fun _ => rfl⟩

/-! ## The byte-serial parser -/

/-- What the parser does with a frame complete in `rx.hdr` and `rx.buf` (R163, R164). -/
theorem finishFrame_cases (s : State) :
    (crcGood s.rx.hdr s.rx.buf = true ∧
      finishFrame s = respond .frame (s.rx.hdr ++ s.rx.buf) (s.setRx (Rx.cleared .header s.rx.lastErr))) ∨
    (crcGood s.rx.hdr s.rx.buf = false ∧
      finishFrame s = raise .crcMismatch (s.setRx (Rx.cleared .resync 0x13))) := by
  unfold finishFrame
  split
  · exact .inl ⟨‹_›, rfl⟩
  · exact .inr ⟨Bool.eq_false_iff.mpr ‹_›, rfl⟩

/-- The search window after one byte (R170). -/
theorem resyncWindow_cases (magic : U32) (b : Byte) (rx : Rx) :
    (rx.hdr.length = 3 ∧ rx.hdr ++ [b] = leBytes 4 magic.toNat ∧
      resyncWindow magic b rx = { rx with state := .header, hdr := rx.hdr ++ [b] }) ∨
    (rx.hdr.length = 3 ∧ rx.hdr ++ [b] ≠ leBytes 4 magic.toNat ∧
      resyncWindow magic b rx = { rx with hdr := rx.hdr.drop 1 ++ [b] }) ∨
    (rx.hdr.length ≠ 3 ∧ resyncWindow magic b rx = { rx with hdr := rx.hdr ++ [b] }) := by
  have hl : (rx.hdr ++ [b]).length = rx.hdr.length + 1 := by simp
  by_cases h3 : rx.hdr.length = 3
  · have h4 : (rx.hdr ++ [b]).length = 4 := by omega
    by_cases hm : rx.hdr ++ [b] = leBytes 4 magic.toNat
    · exact .inl ⟨h3, hm, by rw [resyncWindow, if_pos h4, if_pos hm]⟩
    · refine .inr (.inl ⟨h3, hm, ?_⟩)
      have hs : slice (rx.hdr ++ [b]) 1 4 = rx.hdr.drop 1 ++ [b] := by
        rw [slice, List.drop_append_of_le_length (by omega)]
        exact List.take_of_length_le (by simp; omega)
      rw [resyncWindow, if_pos h4, if_neg hm, hs]
  · exact .inr (.inr ⟨h3, by rw [resyncWindow, if_neg (by omega)]⟩)

/-- RX_BYTE always completes, writes the parser only, and does one of the rows of the transition table (R160). -/
theorem execRxByte_cases (b : Byte) (s : State) :
    ∃ t, execRxByte b s = .next t ∧
      ((s.rx.state = .closed ∧ t = raise .closed s) ∨
       (s.rx.state = .resync ∧ t = respond .needMore [] (s.setRx (resyncWindow s.reg.magic b s.rx))) ∨
       (s.rx.state = .payload ∧ s.rx.remain ≠ 1#64 ∧
         t = respond .needMore [] (s.setRx { s.rx with buf := s.rx.buf ++ [b], remain := s.rx.remain - 1#64 })) ∨
       (s.rx.state = .payload ∧ s.rx.remain = 1#64 ∧
         t = finishFrame (s.setRx { s.rx with buf := s.rx.buf ++ [b], remain := 0#64 })) ∨
       (s.rx.state = .header ∧ s.rx.hdr.length < 35 ∧
         t = respond .needMore [] (s.setRx { s.rx with hdr := s.rx.hdr ++ [b] })) ∨
       (s.rx.state = .header ∧ 35 ≤ s.rx.hdr.length ∧ ∃ e, headerError s.reg (s.rx.hdr ++ [b]) = some e ∧
         t = raise e (s.setRx (Rx.cleared .resync e.code))) ∨
       (s.rx.state = .header ∧ 35 ≤ s.rx.hdr.length ∧ headerError s.reg (s.rx.hdr ++ [b]) = none ∧
         payloadSizeOf (s.rx.hdr ++ [b]) = 0#64 ∧ t = finishFrame (s.setRx { s.rx with hdr := s.rx.hdr ++ [b] })) ∨
       (s.rx.state = .header ∧ 35 ≤ s.rx.hdr.length ∧ headerError s.reg (s.rx.hdr ++ [b]) = none ∧
         payloadSizeOf (s.rx.hdr ++ [b]) ≠ 0#64 ∧
         t = respond .headerOk (leBytes 8 (payloadSizeOf (s.rx.hdr ++ [b])).toNat)
           (s.setRx { s.rx with state := .payload, hdr := s.rx.hdr ++ [b], buf := [],
                                remain := payloadSizeOf (s.rx.hdr ++ [b]) }))) := by
  unfold execRxByte
  cases hs : s.rx.state with
  | closed => exact ⟨_, rfl, .inl ⟨rfl, rfl⟩⟩
  | resync => exact ⟨_, rfl, .inr (.inl ⟨rfl, rfl⟩)⟩
  | payload =>
    refine ⟨_, rfl, .inr (.inr ?_)⟩
    by_cases h1 : s.rx.remain = 1#64
    · refine .inr (.inl ⟨rfl, h1, ?_⟩)
      simp [payloadByte, h1]
    · have h0 : ¬ s.rx.remain - 1#64 = 0#64 := fun h => h1 (by
        have := congrArg (· + 1#64) h
        simpa using this)
      refine .inl ⟨rfl, h1, ?_⟩
      exact if_neg h0
  | header =>
    have hl : (s.rx.hdr ++ [b]).length = s.rx.hdr.length + 1 := by simp
    refine ⟨_, rfl, .inr (.inr (.inr (.inr ?_)))⟩
    by_cases h : s.rx.hdr.length < 35
    · refine .inl ⟨rfl, h, ?_⟩
      simp only [headerByte, headerLength, State.setRx_rx, hl, if_pos (show s.rx.hdr.length + 1 < 36 by omega)]
    · have hb : headerByte b s = validateHeader (s.setRx { s.rx with hdr := s.rx.hdr ++ [b] }) := by
        simp only [headerByte, headerLength, State.setRx_rx, hl,
          if_neg (show ¬ s.rx.hdr.length + 1 < 36 by omega)]
      rw [hb, validateHeader, State.setRx_rx, State.setRx_reg]
      cases he : headerError s.reg (s.rx.hdr ++ [b]) with
      | some e => exact .inr (.inl ⟨rfl, by omega, e, rfl, rfl⟩)
      | none =>
        by_cases hz : payloadSizeOf (s.rx.hdr ++ [b]) = 0#64
        · exact .inr (.inr (.inl ⟨rfl, by omega, rfl, hz, by simp only [if_pos hz]⟩))
        · exact .inr (.inr (.inr ⟨rfl, by omega, rfl, hz, by simp only [if_neg hz]; rfl⟩))

/-! ## The register file -/

/-- The register a number names (R22, R36). -/
theorem Reg.ofNumber_eq (r : Byte) :
    Reg.ofNumber r =
      if r.toNat = 0x00 then some .magic
      else if r.toNat = 0x01 then some .version
      else if r.toNat = 0x02 then some .maxPayload
      else if r.toNat = 0x03 then some .crcAcc
      else if r.toNat = 0x04 then some .maxPayloadCap
      else if r.toNat = 0x10 then some .status
      else if r.toNat = 0x11 then some .rxRemain
      else none := by
  unfold Reg.ofNumber
  split <;> simp_all

theorem clampToCap_le (v : U64) : clampToCap v ≤ Config.maxPayloadCap := by
  unfold clampToCap
  split
  · assumption
  · exact BitVec.le_refl _

theorem toNat_clampToCap (v : U64) : (clampToCap v).toNat = min v.toNat Config.maxPayloadCap.toNat := by
  unfold clampToCap
  split <;> rename_i h <;> rw [BitVec.le_def] at h <;> omega

/-! ## Completion -/

/-- A meaning that answers one response and leaves the port's other side and the draws as they are. -/
def Answers (o : Result) (s : State) : Prop :=
  ∃ t st d, o = .next t ∧ t.responses = s.responses ++ [Status.packet st d] ∧ t.requests = s.requests ∧
    t.draws = s.draws

theorem finishFrame_answers (s : State) : Answers (.next (finishFrame s)) s := by
  rcases finishFrame_cases s with ⟨-, h⟩ | ⟨-, h⟩ <;> rw [h]
  · exact ⟨_, .frame, _, rfl, rfl, rfl, rfl⟩
  · exact ⟨_, .crcMismatch, _, rfl, rfl, rfl, rfl⟩

/-- Every command completes with one response (R58, R225). -/
theorem exec_answers (i : Instr) (s : State) : Answers (exec i s) s := by
  cases i with
  | crcInit => exact ⟨_, .ok, _, rfl, rfl, rfl, rfl⟩
  | crcByte b => exact ⟨_, .ok, _, rfl, rfl, rfl, rfl⟩
  | crcBlock m => exact ⟨_, .ok, _, rfl, rfl, rfl, rfl⟩
  | crcRead => exact ⟨_, .ok, _, rfl, rfl, rfl, rfl⟩
  | encodeFrame seq flags payload =>
    simp only [exec, execEncode]
    split
    · exact ⟨_, .payloadTooLarge, _, rfl, rfl, rfl, rfl⟩
    · exact ⟨_, .ok, _, rfl, rfl, rfl, rfl⟩
  | decodeFrame buf =>
    simp only [exec, execDecode]
    split
    · exact ⟨_, _, _, rfl, rfl, rfl, rfl⟩
    · exact ⟨_, .frame, _, rfl, rfl, rfl, rfl⟩
  | rxStart => exact ⟨_, .ok, _, rfl, rfl, rfl, rfl⟩
  | rxByte b =>
    obtain ⟨t, ht, h⟩ := execRxByte_cases b s
    simp only [exec, ht]
    rcases h with ⟨-, rfl⟩ | ⟨-, rfl⟩ | ⟨-, -, rfl⟩ | ⟨-, -, rfl⟩ | ⟨-, -, rfl⟩ | ⟨-, -, e, -, rfl⟩ |
      ⟨-, -, -, -, rfl⟩ | ⟨-, -, -, -, rfl⟩
    · exact ⟨_, .closed, _, rfl, rfl, rfl, rfl⟩
    · exact ⟨_, .needMore, _, rfl, rfl, rfl, rfl⟩
    · exact ⟨_, .needMore, _, rfl, rfl, rfl, rfl⟩
    · exact finishFrame_answers _
    · exact ⟨_, .needMore, _, rfl, rfl, rfl, rfl⟩
    · exact ⟨_, e, _, rfl, rfl, rfl, rfl⟩
    · exact finishFrame_answers _
    · exact ⟨_, .headerOk, _, rfl, rfl, rfl, rfl⟩
  | rxEos => exact ⟨_, .closed, _, rfl, rfl, rfl, rfl⟩
  | cfgRead r =>
    simp only [exec, execCfgRead]
    split
    · exact ⟨_, .ok, _, rfl, rfl, rfl, rfl⟩
    · exact ⟨_, .illegalCommand, _, rfl, rfl, rfl, rfl⟩
  | cfgWrite r v =>
    simp only [exec, execCfgWrite]
    split
    · exact ⟨_, .ok, _, rfl, rfl, rfl, rfl⟩
    · exact ⟨_, .illegalCommand, _, rfl, rfl, rfl, rfl⟩

/-- Every packet is answered (R225). -/
theorem runPacket_answers (p : Bytes) (s : State) : Answers (runPacket p s) s := by
  unfold runPacket
  split
  · exact exec_answers _ s
  · exact ⟨_, .illegalCommand, _, rfl, rfl, rfl, rfl⟩

/-! ## What an effect depends on -/

theorem finishFrame_block (reg : Regs) (rx : Rx) :
    ∃ reg' rx' r, ∀ q R d, finishFrame ⟨reg, rx, q, R, d⟩ = ⟨reg', rx', q, R ++ [r], d⟩ := by
  unfold finishFrame
  by_cases h : crcGood rx.hdr rx.buf = true
  · simp only [h, if_true]
    exact ⟨_, _, _, fun _ _ _ => rfl⟩
  · simp only [h]
    exact ⟨_, _, _, fun _ _ _ => rfl⟩

theorem execRxByte_block (b : Byte) (reg : Regs) (rx : Rx) :
    ∃ reg' rx' r, ∀ q R d, execRxByte b ⟨reg, rx, q, R, d⟩ = .next ⟨reg', rx', q, R ++ [r], d⟩ := by
  simp only [execRxByte]
  cases rx.state with
  | closed => exact ⟨_, _, _, fun _ _ _ => rfl⟩
  | resync => exact ⟨reg, resyncWindow reg.magic b rx, Status.packet .needMore [], fun _ _ _ => rfl⟩
  | payload =>
    simp only [payloadByte, State.setRx]
    by_cases h : rx.remain - 1#64 = 0#64
    · simp only [h, if_true]
      obtain ⟨reg', rx', r, hf⟩ := finishFrame_block reg { rx with buf := rx.buf ++ [b], remain := 0#64 }
      exact ⟨reg', rx', r, fun q R d => congrArg _ (hf q R d)⟩
    · simp only [h, if_false]
      exact ⟨_, _, _, fun _ _ _ => rfl⟩
  | header =>
    simp only [headerByte, State.setRx]
    by_cases h : (rx.hdr ++ [b]).length < headerLength
    · simp only [h, if_true]
      exact ⟨_, _, _, fun _ _ _ => rfl⟩
    · simp only [h, if_false, validateHeader]
      cases headerError reg (rx.hdr ++ [b]) with
      | some e => exact ⟨_, _, _, fun _ _ _ => rfl⟩
      | none =>
        by_cases h0 : payloadSizeOf (rx.hdr ++ [b]) = 0#64
        · simp only [h0, if_true]
          obtain ⟨reg', rx', r, hf⟩ := finishFrame_block reg { rx with hdr := rx.hdr ++ [b] }
          exact ⟨reg', rx', r, fun q R d => congrArg _ (hf q R d)⟩
        · simp only [h0, if_false]
          exact ⟨_, _, _, fun _ _ _ => rfl⟩

/-- The effect of a command on the block, and its response, depend on the registers and the parser alone; the port's
other side and the draws pass through (R20, R217). -/
theorem exec_block (i : Instr) (reg : Regs) (rx : Rx) :
    ∃ reg' rx' r, ∀ q R d, exec i ⟨reg, rx, q, R, d⟩ = .next ⟨reg', rx', q, R ++ [r], d⟩ := by
  cases i with
  | crcInit => exact ⟨{ reg with crcAcc := crcInitial }, rx, Status.packet .ok [], fun _ _ _ => rfl⟩
  | crcByte b => exact ⟨{ reg with crcAcc := crcStep reg.crcAcc b }, rx, Status.packet .ok [], fun _ _ _ => rfl⟩
  | crcBlock m => exact ⟨{ reg with crcAcc := crcFold reg.crcAcc m }, rx, Status.packet .ok [], fun _ _ _ => rfl⟩
  | crcRead =>
    exact ⟨reg, rx, Status.packet .ok (leBytes 4 (reg.crcAcc ^^^ crcFinalXor).toNat), fun _ _ _ => rfl⟩
  | encodeFrame seq flags payload =>
    simp only [exec, execEncode]
    split <;> exact ⟨_, _, _, fun _ _ _ => rfl⟩
  | decodeFrame buf =>
    simp only [exec, execDecode]
    split <;> exact ⟨_, _, _, fun _ _ _ => rfl⟩
  | rxStart => exact ⟨reg, Rx.cleared .header 0#8, Status.packet .ok [], fun _ _ _ => rfl⟩
  | rxByte b => exact execRxByte_block b reg rx
  | rxEos => exact ⟨reg, Rx.cleared .closed rx.lastErr, Status.packet .closed [], fun _ _ _ => rfl⟩
  | cfgRead r =>
    simp only [exec, execCfgRead]
    cases Reg.ofNumber r with
    | none => exact ⟨_, _, _, fun _ _ _ => rfl⟩
    | some n =>
      exact ⟨_, _, Status.packet .ok (leBytes 8 (readReg ⟨reg, rx, [], [], 0⟩ n).toNat), fun _ _ _ => by
        cases n <;> rfl⟩
  | cfgWrite r v =>
    simp only [exec, execCfgWrite]
    split <;> exact ⟨_, _, _, fun _ _ _ => rfl⟩

/-- The same of a packet, illegal ones among them (R192). -/
theorem runPacket_block (p : Bytes) (reg : Regs) (rx : Rx) :
    ∃ reg' rx' r, ∀ q R d, runPacket p ⟨reg, rx, q, R, d⟩ = .next ⟨reg', rx', q, R ++ [r], d⟩ := by
  unfold runPacket
  split
  · exact exec_block _ reg rx
  · exact ⟨_, _, _, fun _ _ _ => rfl⟩

/-- What one step can do: nothing, run the packet at the head of the port, reset the block, or, by the draw, run a
packet and then reset (R58, R240, R241). -/
theorem step_cases (s : State) :
    (s.requests = [] ∧ step s = .next s) ∨
    (∃ p rest, s.requests = .command p :: rest ∧ step s = runPacket p (s.setRequests rest)) ∨
    (∃ rest, s.requests = .reset :: rest ∧ step s = .next (s.setRequests rest).resetBlock) ∨
    (∃ p rest u, s.requests = .commandWithReset p :: rest ∧ Config.commandBeforeReset s.draws = true ∧
      runPacket p (s.setRequests rest).countDraw = .next u ∧ step s = .next u.resetBlock) ∨
    (∃ p rest, s.requests = .commandWithReset p :: rest ∧ Config.commandBeforeReset s.draws = false ∧
      step s = .next (s.setRequests rest).countDraw.resetBlock) := by
  unfold step takeRequest
  cases h : s.requests with
  | nil => simp
  | cons q rest =>
    cases q with
    | command p => simp
    | reset => simp
    | commandWithReset p =>
      obtain ⟨u, st, d, hu, -⟩ := runPacket_answers p (s.setRequests rest).countDraw
      cases hd : Config.commandBeforeReset s.draws with
      | true => simp [resetWithPacket, hd, hu]
      | false => simp [resetWithPacket, hd]

end Sys2Proof.Machine
end

