-- ==== Sys2Proof/Laws/PerInstr.lean ====
section
/-! SUPPORT. The statements made for every instruction, one lemma for each constructor. -/

namespace Sys2Proof.Laws

open Sys2Proof Sys2Proof.Machine

/-- The format of a command (R82). -/
def PacketLength.format : Instr → Format
  | .crcInit => .N
  | .crcByte _ => .B
  | .crcBlock _ => .L
  | .crcRead => .N
  | .encodeFrame _ _ _ => .E
  | .decodeFrame _ => .L
  | .rxStart => .N
  | .rxByte _ => .B
  | .rxEos => .N
  | .cfgRead _ => .R
  | .cfgWrite _ _ => .W

/-- The packet of a well-formed command has exactly the length its format requires of that packet (R80, R81). -/
def PacketLength.Statement (i : Instr) : Prop :=
  i.wf = true → (encode i).length = requiredLength (PacketLength.format i) (encode i)

/-- The length field of a packet in which it follows `pre` reads as the data's length. -/
theorem dataLength_field {pre m : Bytes} {off : Nat} (h : lengthFits m = true) (hp : pre.length = off) (post : Bytes) :
    leAt 8 (pre ++ (leBytes 8 m.length ++ post)) off = m.length := by
  rw [leAt_append_right 8 pre _ off hp, List.take_append_of_le_length (by simp),
    List.take_of_length_le (by simp), leNat_leBytes_of_lt]
  have : m.length < 2 ^ 64 := by simpa [lengthFits] using h
  exact this.trans_le (by norm_num)

theorem PacketLength.crcInit : PacketLength.Statement .crcInit := fun _ => rfl
theorem PacketLength.crcByte (b : Byte) : PacketLength.Statement (.crcByte b) := fun _ => rfl

theorem PacketLength.crcBlock (m : Bytes) : PacketLength.Statement (.crcBlock m) := fun h => by
  have hd := dataLength_field (pre := [0x03]) (m := m) (off := 1) h rfl m
  simp only [PacketLength.format, requiredLength, fixedLength, dataLength, encode]
  rw [show (0x03 : Byte) :: (leBytes 8 m.length ++ m) = [0x03] ++ (leBytes 8 m.length ++ m) from rfl, hd]
  simp; omega

theorem PacketLength.crcRead : PacketLength.Statement .crcRead := fun _ => rfl

theorem PacketLength.encodeFrame (seq : U64) (flags : U16) (payload : Bytes) :
    PacketLength.Statement (.encodeFrame seq flags payload) := fun h => by
  have hd := dataLength_field (pre := 0x10 :: (leBytes 8 seq.toNat ++ leBytes 2 flags.toNat)) (m := payload) (off := 11)
    h (by simp) payload
  simp only [PacketLength.format, requiredLength, fixedLength, dataLength, encode]
  rw [show (0x10 : Byte) :: (leBytes 8 seq.toNat ++ leBytes 2 flags.toNat ++ leBytes 8 payload.length ++ payload) =
    0x10 :: (leBytes 8 seq.toNat ++ leBytes 2 flags.toNat) ++ (leBytes 8 payload.length ++ payload) by simp, hd]
  simp; omega

theorem PacketLength.decodeFrame (buf : Bytes) : PacketLength.Statement (.decodeFrame buf) := fun h => by
  have hd := dataLength_field (pre := [0x20]) (m := buf) (off := 1) h rfl buf
  simp only [PacketLength.format, requiredLength, fixedLength, dataLength, encode]
  rw [show (0x20 : Byte) :: (leBytes 8 buf.length ++ buf) = [0x20] ++ (leBytes 8 buf.length ++ buf) from rfl, hd]
  simp; omega

theorem PacketLength.rxStart : PacketLength.Statement .rxStart := fun _ => rfl
theorem PacketLength.rxByte (b : Byte) : PacketLength.Statement (.rxByte b) := fun _ => rfl
theorem PacketLength.rxEos : PacketLength.Statement .rxEos := fun _ => rfl
theorem PacketLength.cfgRead (r : Byte) : PacketLength.Statement (.cfgRead r) := fun _ => rfl
theorem PacketLength.cfgWrite (r : Byte) (v : U64) : PacketLength.Statement (.cfgWrite r v) := fun _ => by
  simp [PacketLength.format, requiredLength, fixedLength, dataLength, encode]

end Sys2Proof.Laws
end

