-- ==== Sys2Proof/Machine/Asm.lean ====
section
/-! DEFINITION. The textual form of a command (R86) and of a pseudo-command (R87): one line of text gives the commands
it stands for. It has no effect on the machine (D27). What R86 leaves open of the text is a DESIGN
CHOICE, safe: log entry 14. -/

namespace Sys2Proof.Machine

open Sys2Proof

/-- The parts of a line. -/
inductive Token where
  /-- A mnemonic, a register name or an integer. -/
  | word (cs : List Char)
  /-- A byte sequence, `[hh hh …]` or a quoted ASCII string. -/
  | bytes (bs : Bytes)
  /-- The comma between operands. -/
  | comma
deriving DecidableEq, Repr

/-- Where the reader of a line stands. Words and byte sequences are held last character first. -/
inductive LexMode where
  /-- Between tokens. -/
  | gap
  /-- In a word. -/
  | word (rev : List Char)
  /-- In a bracketed sequence, between bytes. -/
  | hexGap (rev : Bytes)
  /-- After a byte's first digit. -/
  | hexHigh (rev : Bytes) (high : Nat)
  /-- After a byte's second digit. -/
  | hexByte (rev : Bytes)
  /-- In a quoted string. -/
  | quoted (rev : Bytes)
  /-- After `;`, to the end of the line. -/
  | comment
deriving DecidableEq, Repr

/-- The value of a hexadecimal digit. -/
def hexDigit (c : Char) : Option Nat :=
  if '0' ≤ c ∧ c ≤ '9' then some (c.toNat - 48)
  else if 'A' ≤ c ∧ c ≤ 'F' then some (c.toNat - 55)
  else if 'a' ≤ c ∧ c ≤ 'f' then some (c.toNat - 87)
  else none

/-- The value of a decimal digit. -/
def decimalDigit (c : Char) : Option Nat := if '0' ≤ c ∧ c ≤ '9' then some (c.toNat - 48) else none

/-- White space between the parts of a line. -/
def isBlank (c : Char) : Bool := c == ' ' || c == '\t'

/-- A character of a word. -/
def isWordChar (c : Char) : Bool := c.isAlphanum || c == '_'

/-- The first character after a token: the mode it opens and the token it is by itself. -/
def lexOpen (c : Char) : Option (LexMode × List Token) :=
  if isBlank c then some (.gap, [])
  else if c == ';' then some (.comment, [])
  else if c == ',' then some (.gap, [.comma])
  else if c == '[' then some (.hexGap [], [])
  else if c == '"' then some (.quoted [], [])
  else if isWordChar c then some (.word [c], [])
  else none

/-- One character of a line: the next mode and the tokens it completes; none where the line is ill-formed. -/
def lexStep (mode : LexMode) (c : Char) : Option (LexMode × List Token) :=
  match mode with
  | .gap => lexOpen c
  | .word rev =>
    if isWordChar c then some (.word (c :: rev), [])
    else (lexOpen c).map fun (m, ts) => (m, .word rev.reverse :: ts)
  | .hexGap rev =>
    if isBlank c then some (.hexGap rev, [])
    else if c == ']' then some (.gap, [.bytes rev.reverse])
    else (hexDigit c).map fun d => (.hexHigh rev d, [])
  | .hexHigh rev high => (hexDigit c).map fun d => (.hexByte (BitVec.ofNat 8 (16 * high + d) :: rev), [])
  | .hexByte rev =>
    if isBlank c then some (.hexGap rev, [])
    else if c == ']' then some (.gap, [.bytes rev.reverse])
    else none
  | .quoted rev =>
    if c == '"' then some (.gap, [.bytes rev.reverse])
    else if c.toNat < 128 then some (.quoted (BitVec.ofNat 8 c.toNat :: rev), [])
    else none
  | .comment => some (.comment, [])

/-- The tokens of a line, read from a mode on. -/
def lexFrom : LexMode → List Char → Option (List Token)
  | .gap, [] => some []
  | .word rev, [] => some [.word rev.reverse]
  | .comment, [] => some []
  | .hexGap _, [] => none
  | .hexHigh _ _, [] => none
  | .hexByte _, [] => none
  | .quoted _, [] => none
  | mode, c :: cs =>
    match lexStep mode c with
    | none => none
    | some (next, ts) => (lexFrom next cs).map (ts ++ ·)

/-- The characters begin with a digit. -/
def startsWithDigit (digit : Char → Option Nat) : List Char → Bool
  | [] => false
  | c :: _ => (digit c).isSome

/-- The number the characters write in a base, after the value of the digits before them. R86 says nothing of `_`: that
one `_` is skipped where a digit follows it, as in the vector's 0x1_641C1F5C, and is refused elsewhere, is a DESIGN
CHOICE, safe: log entry 14. -/
def digitsFrom (base : Nat) (digit : Char → Option Nat) : Nat → List Char → Option Nat
  | acc, [] => some acc
  | acc, c :: cs =>
    if c == '_' then
      if startsWithDigit digit cs then digitsFrom base digit acc cs else none
    else
      match digit c with
      | none => none
      | some d => digitsFrom base digit (base * acc + d) cs

/-- The number a word writes in a base: it begins with a digit, so each `_` in it stands between two digits. DESIGN
CHOICE, safe: log entry 14. -/
def number (base : Nat) (digit : Char → Option Nat) (cs : List Char) : Option Nat :=
  if startsWithDigit digit cs then digitsFrom base digit 0 cs else none

/-- An integer, decimal or `0x` hex (R86). -/
def integer (cs : List Char) : Option Nat :=
  match cs with
  | '0' :: 'x' :: rest => number 16 hexDigit rest
  | _ => number 10 decimalDigit cs

/-- An integer operand that its field of `w` bits holds. -/
def field (w : Nat) (cs : List Char) : Option (BitVec w) :=
  match integer cs with
  | none => none
  | some n => if n < 2 ^ w then some (BitVec.ofNat w n) else none

/-- The register names of R86. -/
def registerNames : List (List Char × Byte) :=
  [("MAGIC".toList, 0x00), ("VERSION".toList, 0x01), ("MAX_PAYLOAD".toList, 0x02), ("CRC_ACC".toList, 0x03),
    ("MAX_PAYLOAD_CAP".toList, 0x04), ("STATUS".toList, 0x10), ("RX_REMAIN".toList, 0x11)]

/-- A register operand, by name or by number (R86). -/
def register (cs : List Char) : Option Byte :=
  match registerNames.lookup cs with
  | some r => some r
  | none => field 8 cs

/-- The operands between the commas. -/
def operands : List Token → Option (List Token)
  | [] => some []
  | [.comma] => none
  | [t] => some [t]
  | .comma :: _ :: _ => none
  | t :: .comma :: next :: rest => (operands (next :: rest)).map (t :: ·)
  | _ :: .comma :: [] => none
  | _ :: .word _ :: _ => none
  | _ :: .bytes _ :: _ => none

/-- The commands a mnemonic with its operands stands for (R86, R87). -/
def commandsOf (mnemonic : List Char) (args : List Token) : Option (List Instr) :=
  match args with
  | [] =>
    if mnemonic = "CRC_INIT".toList then some [.crcInit]
    else if mnemonic = "CRC_READ".toList then some [.crcRead]
    else if mnemonic = "RX_START".toList then some [.rxStart]
    else if mnemonic = "RX_EOS".toList then some [.rxEos]
    else if mnemonic = "CFG_DEFAULTS".toList then some (expand .cfgDefaults)
    else none
  | [.word a] =>
    if mnemonic = "CRC_BYTE".toList then (field 8 a).map fun b => [.crcByte b]
    else if mnemonic = "RX_BYTE".toList then (field 8 a).map fun b => [.rxByte b]
    else if mnemonic = "CFG_READ".toList then (register a).map fun r => [.cfgRead r]
    else none
  | [.bytes m] =>
    if mnemonic = "CRC_BLOCK".toList then some [.crcBlock m]
    else if mnemonic = "DECODE".toList then some [.decodeFrame m]
    else if mnemonic = "RX_FEED".toList then some (expand (.rxFeed m))
    else if mnemonic = "CRC_OF".toList then some (expand (.crcOf m))
    else none
  | [.word a, .word b] =>
    if mnemonic = "CFG_WRITE".toList then
      (register a).bind fun r => (field 64 b).map fun v => [.cfgWrite r v]
    else none
  | [.word a, .word b, .bytes m] =>
    if mnemonic = "ENCODE".toList then
      (field 64 a).bind fun seq => (field 16 b).map fun flags => [.encodeFrame seq flags m]
    else none
  | _ => none

/-- One line (R86): no command for a blank line or a comment, none at all for an ill-formed line. -/
def assemble (line : List Char) : Option (List Instr) :=
  match lexFrom .gap line with
  | none => none
  | some [] => some []
  | some (.word mnemonic :: args) => (operands args).bind (commandsOf mnemonic)
  | some (.bytes _ :: _) => none
  | some (.comma :: _) => none

end Sys2Proof.Machine
end

