-- ==== Sys2Proof/Tests/Slice0.lean ====
section
/-! SUPPORT. Small tests, their expected values from the vectors of spec/95_test_vectors.md, and for every obligation
with hypotheses a theorem that meets them all together. -/

namespace Sys2Proof.Tests

open Sys2Proof Sys2Proof.Machine

/-! ## Helpers -/

/-- The reset state with MAX_PAYLOAD = 4096, as the vectors take it. -/
def start : State := { State.reset with reg := { Regs.reset with maxPayload := 4096 } }

/-- The same with a parser of the test's choice. -/
def startRx (rx : Rx) : State := { start with rx := rx }

/-- The same with a packet on the port. -/
def port (p : Bytes) : State := { start with requests := [.command p] }

/-- The first 32 header bytes of frame F1. -/
def head1 : Bytes :=
  [0x46, 0x57, 0x53, 0x44, 0x01, 0, 0, 0] ++ [0x01, 0, 0, 0, 0, 0, 0, 0] ++ [0x04, 0, 0, 0, 0, 0, 0, 0] ++
    [0, 0, 0, 0, 0, 0, 0, 0]

/-- Frame F1, 40 bytes with a payload of 4. -/
def f1 : Bytes := head1 ++ [0xDA, 0x5D, 0xEC, 0x38, 0xDE, 0xAD, 0xBE, 0xEF]

/-- Frame F0, 36 bytes with no payload. -/
def f0 : Bytes := [0x46, 0x57, 0x53, 0x44, 0x01, 0, 0, 0] ++ zeros 24 ++ [0x1F, 0x36, 0x8C, 0x1D]

/-- The responses of a step's next state. -/
def answers : Result → List Bytes
  | .next t => t.responses
  | .fault _ => []
  | .refused _ => []

/-- The registers of a step's next state. -/
def regs : Result → Option Regs
  | .next t => some t.reg
  | .fault _ => none
  | .refused _ => none

/-- The parser of a step's next state. -/
def parser : Result → Option Rx
  | .next t => some t.rx
  | .fault _ => none
  | .refused _ => none

/-- A meaning's answer holds a next state. -/
def completes : Result → Bool
  | .next _ => true
  | .fault _ => false
  | .refused _ => false

/-- The parser one byte before the end of F1's payload. -/
def lastOfF1 : Rx := { state := .payload, hdr := f1.take 36, buf := [0xDE, 0xAD, 0xBE], remain := 1, lastErr := 0 }

/-- The parser one byte before the end of F0. -/
def lastOfF0 : Rx := { state := .header, hdr := f0.take 35, buf := [], remain := 0, lastErr := 0 }

/-! ## WellFormed: a byte sequence longer than the length field can say is refused -/

theorem test_wf_refuses_long_crc_block : (Instr.crcBlock (List.replicate (2 ^ 64) 0)).wf = false := by
  simp only [Instr.wf, lengthFits, List.length_replicate, Nat.lt_irrefl, decide_false]

theorem test_wf_refuses_long_encode : (Instr.encodeFrame 1 0 (List.replicate (2 ^ 64) 0)).wf = false := by
  simp only [Instr.wf, lengthFits, List.length_replicate, Nat.lt_irrefl, decide_false]

theorem test_wf_refuses_long_decode : (Instr.decodeFrame (List.replicate (2 ^ 64) 0)).wf = false := by
  simp only [Instr.wf, lengthFits, List.length_replicate, Nat.lt_irrefl, decide_false]

theorem test_wf_accepts_the_longest : (Instr.crcBlock (List.replicate (2 ^ 64 - 1) 0)).wf = true := by
  simp only [Instr.wf, lengthFits, List.length_replicate, decide_eq_true_eq]
  norm_num

/-! ## Decode: packets written out from R81 and R82 -/

theorem test_decode_crc_init : decode [0x01] = .command .crcInit := by decide
theorem test_decode_crc_byte : decode [0x02, 0xAB] = .command (.crcByte 0xAB) := by decide
theorem test_decode_crc_block :
    decode [0x03, 0x04, 0, 0, 0, 0, 0, 0, 0, 0x31, 0x32, 0x33, 0x34] = .command (.crcBlock [0x31, 0x32, 0x33, 0x34]) := by
  decide
theorem test_decode_crc_block_empty : decode [0x03, 0, 0, 0, 0, 0, 0, 0, 0] = .command (.crcBlock []) := by decide
theorem test_decode_crc_read : decode [0x04] = .command .crcRead := by decide
theorem test_decode_encode :
    decode [0x10, 1, 0, 0, 0, 0, 0, 0, 0, 0, 0x80, 4, 0, 0, 0, 0, 0, 0, 0, 0xDE, 0xAD, 0xBE, 0xEF] =
      .command (.encodeFrame 1 0x8000 [0xDE, 0xAD, 0xBE, 0xEF]) := by decide
theorem test_decode_decode :
    decode [0x20, 0x01, 0, 0, 0, 0, 0, 0, 0, 0x46] = .command (.decodeFrame [0x46]) := by decide
theorem test_decode_rx_start : decode [0x30] = .command .rxStart := by decide
theorem test_decode_rx_byte : decode [0x31, 0x46] = .command (.rxByte 0x46) := by decide
theorem test_decode_rx_eos : decode [0x32] = .command .rxEos := by decide
theorem test_decode_cfg_read : decode [0x40, 0x11] = .command (.cfgRead 0x11) := by decide
theorem test_decode_cfg_write :
    decode [0x41, 0x03, 0x5C, 0x1F, 0x1C, 0x64, 0, 0, 0, 0x80] = .command (.cfgWrite 0x03 0x80000000641C1F5C) := by
  decide

/-- The rows of V-ILL that the decoder refuses. -/
theorem test_decode_refuses :
    decode [] = .illegal .emptyPacket ∧ decode [0x00] = .illegal (.reservedOpcode 0x00) ∧
    decode [0x05] = .illegal (.reservedOpcode 0x05) ∧ decode [0xFF] = .illegal (.reservedOpcode 0xFF) ∧
    decode [0x01, 0x00] = .illegal (.wrongLength 0x01) ∧ decode [0x02] = .illegal (.wrongLength 0x02) ∧
    decode [0x03, 0x02, 0, 0, 0, 0, 0, 0, 0, 0x31] = .illegal (.wrongLength 0x03) ∧
    decode [0x20, 0, 0] = .illegal (.wrongLength 0x20) ∧
    decode [0x41, 2, 3, 0, 0, 0, 0, 0, 0] = .illegal (.wrongLength 0x41) := by decide

/-- ENCODE whose length field says 1 with no payload byte. -/
theorem test_decode_refuses_short_encode :
    decode (0x10 :: zeros 10 ++ [1] ++ zeros 7) = .illegal (.wrongLength 0x10) := by decide

theorem test_encode_encode :
    encode (.encodeFrame 1 0 [0xDE, 0xAD, 0xBE, 0xEF]) =
      [0x10, 1, 0, 0, 0, 0, 0, 0, 0, 0, 0, 4, 0, 0, 0, 0, 0, 0, 0, 0xDE, 0xAD, 0xBE, 0xEF] := by decide

/-- A length field of 1 in the table's word gives one data byte of 0 (log entry 15). -/
theorem test_table_word_pads : decodeTableWord 72 0x0103 = some (.crcBlock [0]) := by decide

theorem test_fetch_word_runs :
    answers (step (State.reset.withFetchWord 8 0x04)) = [[0x00, 0, 0, 0, 0]] := by decide

/-! ## The assembler (R86, R87) -/

theorem test_assemble_cfg_write :
    assemble "CFG_WRITE CRC_ACC, 0x641C1F5C ; restore".toList = some [.cfgWrite 0x03 0x641C1F5C] := by decide
theorem test_assemble_encode :
    assemble "ENCODE 1, 0x8000, [DE AD]".toList = some [.encodeFrame 1 0x8000 [0xDE, 0xAD]] := by decide
theorem test_assemble_crc_of :
    assemble "CRC_OF \"a\"".toList = some [.crcInit, .crcBlock [0x61], .crcRead] := by decide
theorem test_assemble_refuses : assemble "CRC_BYTE 256".toList = none ∧ assemble "RX_BYTE [46]".toList = none := by
  decide

/-- The vector's number with `_`, and the words with `_` that are no numbers (log entry 14). -/
theorem test_integer_underscore :
    integer "0x1_641C1F5C".toList = some 0x1641C1F5C ∧
      ∀ w ∈ ["_", "_5", "5_", "1__0", "0x", "0x_", "0x_5"], integer w.toList = none := by decide

/-! ## CRC -/

/-- V-CRC: table entries 1, 128 and 255, and a step from a full accumulator. -/
theorem test_crc_step :
    crcStep 0 0x01 = 0x77073096 ∧ crcStep 0 0x80 = 0xEDB88320 ∧ crcStep 0 0xFF = 0x2D02EF8D ∧
      crcStep 0x12345678 0xAB = 0x1FC8B738 := by decide

theorem test_crc32_full_bytes : crc32 [0xFF, 0xFF, 0xFF, 0xFF] = 0xFFFFFFFF := by decide +kernel
theorem test_crc32_payload : crc32 [0xDE, 0xAD, 0xBE, 0xEF] = 0x7C9CA35A := by decide +kernel

theorem test_crc_init :
    (regs (exec .crcInit { start with reg := { start.reg with crcAcc := 5 } })).map Regs.crcAcc = some 0xFFFFFFFF := by
  decide
/-- V-CRC: the first byte of "123456789" after CRC_INIT. -/
theorem test_crc_byte : (regs (exec (.crcByte 0x31) start)).map Regs.crcAcc = some 0x7C231048 := by decide
theorem test_crc_block :
    (regs (exec (.crcBlock [0x31, 0x32, 0x33, 0x34]) start)).map Regs.crcAcc = some 0x641C1F5C := by
  decide +kernel
theorem test_crc_block_empty :
    (regs (exec (.crcBlock []) start)).map Regs.crcAcc = some 0xFFFFFFFF := by decide
/-- P1, row 4. -/
theorem test_crc_read :
    answers (exec .crcRead { start with reg := { start.reg with crcAcc := 0x641C1F5C } }) =
      [[0x00, 0xA3, 0xE0, 0xE3, 0x9B]] := by decide

/-! ## Frames -/

theorem test_encode_f1 : answers (exec (.encodeFrame 1 0 [0xDE, 0xAD, 0xBE, 0xEF]) start) = [0x00 :: f1] := by
  decide +kernel
/-- V-ENC: a payload one byte longer than MAX_PAYLOAD. -/
theorem test_encode_too_large :
    answers (exec (.encodeFrame 1 0 [1, 2, 3, 4]) { start with reg := { start.reg with maxPayload := 3 } }) = [[0x12]] := by
  decide
/-- DEC-6: trailing bytes are dropped. -/
theorem test_decode_trailing : answers (exec (.decodeFrame (f1 ++ [0xAA, 0xAA])) start) = [0x03 :: f1] := by
  decide +kernel
/-- DEC-16: a size one larger than the buffer holds is PAYLOAD_TOO_LARGE, not CRC_MISMATCH. -/
theorem test_decode_short_buffer : answers (exec (.decodeFrame (f1.set 16 5)) start) = [[0x12]] := by decide +kernel

/-! ## The stream -/

/-- RX-1: the 36th byte of F1. -/
theorem test_rx_header_ok :
    answers (exec (.rxByte 0x38) (startRx { state := .header, hdr := f1.take 35, buf := [], remain := 0, lastErr := 0 })) =
      [[0x02, 4, 0, 0, 0, 0, 0, 0, 0]] := by decide +kernel
/-- RX-1: the last byte of F1. -/
theorem test_rx_frame : answers (exec (.rxByte 0xEF) (startRx lastOfF1)) = [0x03 :: f1] := by decide +kernel
theorem test_rx_start :
    parser (exec .rxStart (startRx { state := .closed, hdr := [], buf := [], remain := 0, lastErr := 0x13 })) =
      some Rx.reset := by decide
/-- RX-11: the end of the stream inside a payload; `rx.last_err` is kept. -/
theorem test_rx_eos :
    parser (exec .rxEos (startRx { lastOfF1 with lastErr := 0x11 })) =
      some { state := .closed, hdr := [], buf := [], remain := 0, lastErr := 0x11 } := by decide

/-! ## Registers -/

/-- RX-5: STATUS 0x240001. -/
theorem test_cfg_read_status :
    answers (exec (.cfgRead 0x10) (startRx lastOfF1)) = [[0x00, 0x01, 0x00, 0x24, 0, 0, 0, 0, 0]] := by decide
theorem test_cfg_read_max_payload : answers (exec (.cfgRead 0x02) start) = [[0x00, 0, 0x10, 0, 0, 0, 0, 0, 0]] := by
  decide
theorem test_cfg_write_version :
    (regs (exec (.cfgWrite 0x01 0x10001) start)).map Regs.version = some 1 := by decide
theorem test_cfg_write_read_only : exec (.cfgWrite 0x04 1) start = .next { start with responses := [[0x30]] } := rfl

/-! ## Witnesses: a concrete state and operands that meet the hypotheses of each obligation that has any -/

/-- DecodeEncodeRoundTrip: one well-formed command for each opcode. -/
theorem witness_decode_encode_round_trip :
    ∀ i ∈ [Instr.crcInit, .crcByte 1, .crcBlock [1, 2], .crcRead, .encodeFrame 1 2 [3], .decodeFrame [], .rxStart,
      .rxByte 0, .rxEos, .cfgRead 0xFF, .cfgWrite 3 4], i.wf = true := by decide

theorem witness_decoded_packet_is_the_encoding : decode [0x40, 0xFF] = .command (.cfgRead 0xFF) := by decide

theorem witness_step_runs_the_decoded_command :
    (port [0x01]).requests = .command [0x01] :: [] ∧ decode [0x01] = .command .crcInit := by decide

theorem witness_fetch_word_runs_as_the_next_command : decodeTableWord 8 0x01 = some .crcInit := by decide

/-- IllegalCommandWritesNoState: each reason of R192, at the register numbers where legal and illegal meet. -/
theorem witness_illegal_command_writes_no_state :
    (port []).requests = .command [] :: [] ∧ IllegalPacket [] ∧ IllegalPacket [0x05] ∧ IllegalPacket [0x01, 0x00] ∧
      IllegalPacket [0x40, 0x05] ∧ IllegalPacket [0x40, 0x12] ∧ IllegalPacket (0x41 :: 0x04 :: zeros 8) := by
  refine ⟨rfl, trivial, ?_, ?_, ?_, ?_, ?_⟩ <;> simp [IllegalPacket, PacketFits]

/-- OnlyIllegalPacketsAreAnsweredIllegal: the neighbours of the last witness. -/
theorem witness_only_illegal_packets_are_answered_illegal :
    (port [0x01]).requests = .command [0x01] :: [] ∧ ¬ IllegalPacket [0x01] ∧ ¬ IllegalPacket [0x40, 0x04] ∧
      ¬ IllegalPacket [0x40, 0x11] ∧ ¬ IllegalPacket (0x41 :: 0x03 :: zeros 8) := by
  refine ⟨rfl, ?_, ?_, ?_, ?_⟩ <;> simp [IllegalPacket, PacketFits, zeros]

theorem witness_every_packet_gets_one_response : (port [0x05]).requests = .command [0x05] :: [] := rfl

/-- EveryHostSequenceIsServed has no hypothesis; three requests, a reset among them, are served in three steps. -/
theorem witness_every_host_sequence_is_served :
    ∃ t : State, Host.Core.run Sys2Proof.core 3
      { start with requests := [.command [0x01], .reset, .command [0xFF]] } = .next t ∧ t.requests = [] :=
  ⟨_, rfl, rfl⟩

theorem witness_commands_take_effect_in_order :
    (∀ i ∈ [Instr.crcInit, .rxEos], i.wf = true) ∧
    ({ start with requests := [.command [0x01], .command [0x32]] } : State).requests =
      [Instr.crcInit, .rxEos].map (fun i => .command (encode i)) := by decide

theorem witness_idle_step_changes_nothing : start.requests = [] := rfl

theorem witness_reset_gives_every_component_its_value :
    ({ start with requests := [.reset] } : State).requests = .reset :: [] := rfl

theorem witness_command_with_reset_is_whole_or_dropped :
    ({ start with requests := [.commandWithReset [0x01]] } : State).requests = .commandWithReset [0x01] :: [] := rfl

/-- SingleBitFlipChangesTheCrc: the last bit of the last byte. -/
theorem witness_single_bit_flip_changes_the_crc : 3 < ([0xDE, 0xAD, 0xBE, 0xEF] : Bytes).length ∧ 7 < 8 := by decide

/-- EncodedFrameDecodesToItself: a payload as long as MAX_PAYLOAD, and a consumer whose accumulator and parser differ. -/
theorem witness_encoded_frame_decodes_to_itself :
    let s : State := { start with reg := { start.reg with maxPayload := 4 } }
    let u : State := { s with reg := { s.reg with crcAcc := 0 }, rx := lastOfF1 }
    ([0xDE, 0xAD, 0xBE, 0xEF] : Bytes).length ≤ s.reg.maxPayload.toNat ∧ u.reg.magic = s.reg.magic ∧
      u.reg.version = s.reg.version ∧ u.reg.maxPayload = s.reg.maxPayload := by decide

/-- ConsumerAcceptsWhenTheConfigurationsAgree and SingleBitCorruptionIsClassified: ENCODE answers F1. -/
theorem witness_consumer_accepts_when_the_configurations_agree :
    exec (.encodeFrame 1 0 [0xDE, 0xAD, 0xBE, 0xEF]) start =
      .next { start with responses := start.responses ++ [0x00 :: f1] } :=
  congrArg Host.Outcome.next (congrArg (fun r => { start with responses := r }) (by decide +kernel :
    [0x00 :: buildFrame start.reg 1 0 [0xDE, 0xAD, 0xBE, 0xEF]] = [0x00 :: f1]))

/-- SingleBitCorruptionIsClassified: the first and last byte of each field lie in the frame. -/
theorem witness_single_bit_corruption_is_classified :
    exec (.encodeFrame 1 0 [0xDE, 0xAD, 0xBE, 0xEF]) start =
      .next { start with responses := start.responses ++ [0x00 :: f1] } ∧
    (∀ k ∈ [0, 3, 4, 5, 6, 15, 16, 23, 24, 39], k < f1.length) ∧ 7 < 8 :=
  ⟨witness_consumer_accepts_when_the_configurations_agree, by decide, by decide⟩

/-- DecodeReadsNoByteOutsideTheFrame, first clause: both buffers end before the payload does. -/
theorem witness_decode_reads_no_byte_outside_the_frame_short :
    36 ≤ (f1.take 36).length ∧ 36 ≤ (f1.take 39).length ∧ (f1.take 36).take 36 = (f1.take 39).take 36 ∧
      completes (exec (.decodeFrame (f1.take 36)) start) = true ∧
      (f1.take 36).length < 36 + leAt 8 (f1.take 36) 16 ∧ (f1.take 39).length < 36 + leAt 8 (f1.take 36) 16 := by
  decide +kernel

/-- DecodeReadsNoByteOutsideTheFrame, second clause: the whole frame, without and with a byte after it. -/
theorem witness_decode_reads_no_byte_outside_the_frame_whole :
    36 ≤ f1.length ∧ 36 ≤ (f1 ++ [0xAA]).length ∧ f1.take 36 = (f1 ++ [0xAA]).take 36 ∧
      completes (exec (.decodeFrame f1) start) = true ∧ 36 + leAt 8 f1 16 ≤ f1.length ∧
      36 + leAt 8 f1 16 ≤ (f1 ++ [0xAA]).length ∧
      f1.take (36 + leAt 8 f1 16) = (f1 ++ [0xAA]).take (36 + leAt 8 f1 16) := by decide +kernel

/-- DecodeReadsNoByteOutsideTheFrame, third clause: each header check fails by one. -/
theorem witness_decode_reads_no_byte_outside_the_frame_header :
    (f1.set 0 0x47).take 36 = (f1.set 0 0x47 |>.take 36).take 36 ∧
      completes (exec (.decodeFrame (f1.set 0 0x47)) start) = true ∧
      leAt 4 (f1.set 0 0x47) 0 ≠ start.reg.magic.toNat ∧ start.reg.version.toNat < leAt 2 (f1.set 4 2) 4 ∧
      ({ start.reg with maxPayload := 3 } : Regs).maxPayload.toNat < leAt 8 f1 16 := by decide +kernel

/-- RxByteCollectsTheHeader: no byte yet, and 34 bytes. -/
theorem witness_rx_byte_collects_the_header :
    (start.rx.state = .header ∧ start.rx.hdr.length < 35) ∧
    (startRx { lastOfF0 with hdr := f0.take 34 }).rx.state = .header ∧
      (startRx { lastOfF0 with hdr := f0.take 34 }).rx.hdr.length < 35 := by decide

theorem witness_rx_byte_validates_the_header_at_its_last_byte :
    (startRx lastOfF0).rx.state = .header ∧ (startRx lastOfF0).rx.hdr.length = 35 ∧ (startRx lastOfF0).rx.buf = [] := by
  decide

/-- RxByteChecksTheCrcAtTheLastPayloadByte: one byte to come, and two. -/
theorem witness_rx_byte_checks_the_crc_at_the_last_payload_byte :
    ∀ rx ∈ [lastOfF1, { lastOfF1 with buf := [0xDE, 0xAD], remain := 2 }],
      (startRx rx).rx.state = .payload ∧ (startRx rx).rx.hdr.length = 36 ∧ 1 ≤ (startRx rx).rx.remain.toNat := by
  decide

/-- RxByteSlidesTheSearchWindow: windows of 0, 2 and 3 bytes. -/
theorem witness_rx_byte_slides_the_search_window :
    ∀ w ∈ [[], [0x46, 0x57], [0x46, 0x57, 0x53]],
      (startRx { state := .resync, hdr := w, buf := [], remain := 0, lastErr := 0x10 }).rx.state = .resync ∧
      (startRx { state := .resync, hdr := w, buf := [], remain := 0, lastErr := 0x10 }).rx.hdr.length ≤ 3 := by decide

/-- OnlyRestartLeavesClosed: RX_START takes a CLOSED parser out of it. -/
theorem witness_only_restart_leaves_closed :
    let s : State := { port [0x30] with rx := { state := .closed, hdr := [], buf := [], remain := 0, lastErr := 0 } }
    s.rx.state = .closed ∧ (parser (step s)).map Rx.state = some .header := by decide

/-- LastErrIsSticky: a command the third clause covers, an illegal packet, and a reset. -/
theorem witness_last_err_is_sticky :
    (Instr.rxEos ≠ .rxStart ∧ ∀ b, Instr.rxEos ≠ .rxByte b) ∧
    ((port [0x05]).requests = .command [0x05] :: [] ∧ ∀ i, decode [0x05] ≠ .command i) ∧
    ({ start with requests := [.reset] } : State).requests = .reset :: [] :=
  ⟨⟨by decide, fun _ => by simp⟩, ⟨rfl, fun _ => by
    rw [show decode [0x05] = .illegal (.reservedOpcode 0x05) by decide]
    simp⟩, rfl⟩

/-- AcceptedSizeIsNotCheckedAgain: PAYLOAD, and HEADER with 34 bytes. -/
theorem witness_accepted_size_is_not_checked_again :
    (startRx lastOfF1).rx.state = .payload ∧
    (startRx { lastOfF0 with hdr := f0.take 34 }).rx.state = .header ∧
      (startRx { lastOfF0 with hdr := f0.take 34 }).rx.hdr.length < 35 := by decide

/-- A state that meets the invariant whatever the OPEN capacity is: MAX_PAYLOAD is 0. -/
def narrow (rx : Rx) : State := { startRx rx with reg := { start.reg with maxPayload := 0 } }

theorem narrow_inv (rx : Rx) (h : rx.Consistent) (he : rx.lastErr ∈ lastErrValues) : (narrow rx).Inv :=
  ⟨h, BitVec.le_def.mpr (Nat.zero_le _), he⟩

theorem reset_consistent : Rx.reset.Consistent :=
  show Rx.reset.hdr.length ≤ 35 ∧ Rx.reset.buf = [] ∧ Rx.reset.remain = 0 by decide

theorem lastOfF0_consistent : lastOfF0.Consistent :=
  show lastOfF0.hdr.length ≤ 35 ∧ lastOfF0.buf = [] ∧ lastOfF0.remain = 0 by decide

theorem lastOfF1_consistent : lastOfF1.Consistent :=
  show lastOfF1.hdr.length = 36 ∧ 1 ≤ leAt 8 lastOfF1.hdr 16 ∧
    lastOfF1.buf.length + lastOfF1.remain.toNat = leAt 8 lastOfF1.hdr 16 ∧ 1 ≤ lastOfF1.remain.toNat by decide +kernel

/-- EveryFrameResponseIsAGoodFrame: a DECODE, and the last stream byte of F0. -/
theorem witness_every_frame_response_is_a_good_frame :
    (narrow Rx.reset).Inv ∧ answers (exec (.decodeFrame f0) (narrow Rx.reset)) = [] ++ [0x03 :: f0] ∧
    (narrow lastOfF0).Inv ∧ answers (exec (.rxByte 0x1D) (narrow lastOfF0)) = [] ++ [0x03 :: f0] :=
  ⟨narrow_inv _ reset_consistent (by decide), by decide +kernel, narrow_inv _ lastOfF0_consistent (by decide), by decide +kernel⟩

/-- EveryFrameResponseIsAGoodFrame: the last payload byte of F1. -/
theorem witness_every_frame_response_is_a_good_frame_payload :
    (narrow lastOfF1).Inv ∧ answers (exec (.rxByte 0xEF) (narrow lastOfF1)) = [] ++ [0x03 :: f1] :=
  ⟨narrow_inv _ lastOfF1_consistent (by decide), by decide +kernel⟩

/-- StreamOfFramesIsParsedFrameByFrame: F1 from reset. -/
theorem witness_stream_of_frames_is_parsed_frame_by_frame :
    start.rx.AtBoundary ∧
    ∀ x ∈ [(((1 : U64), (0 : U16), ([0xDE, 0xAD, 0xBE, 0xEF] : Bytes)), f1)],
      exec (.encodeFrame x.1.1 x.1.2.1 x.1.2.2) start =
        .next { start with responses := start.responses ++ [0x00 :: x.2] } :=
  ⟨⟨rfl, rfl, rfl, rfl⟩, fun x hx => by
    rw [List.mem_singleton] at hx
    subst hx
    exact witness_consumer_accepts_when_the_configurations_agree⟩

theorem witness_stream_accepts_what_decode_accepts : start.rx.AtBoundary := ⟨rfl, rfl, rfl, rfl⟩

/-- ResyncFindsTheFirstMagic: a scan without MAGIC, and RX-9's scan that ends with it. -/
theorem witness_resync_finds_the_first_magic :
    let s := startRx { state := .resync, hdr := [], buf := [], remain := 0, lastErr := 0x10 }
    s.rx.state = .resync ∧ s.rx.hdr = [] ∧ ¬ leBytes 4 s.reg.magic.toNat <:+: [0x46, 0x57, 0x53] ∧
      leBytes 4 s.reg.magic.toNat <:+ [0x46, 0x46, 0x57, 0x53, 0x44] ∧
      ¬ leBytes 4 s.reg.magic.toNat <:+: [0x46, 0x46, 0x57, 0x53, 0x44].dropLast := by decide

/-- CfgReadReturnsTheRegister and ReservedRegistersAndBits: no header byte, and 36; reserved numbers at the edges. -/
theorem witness_cfg_read_returns_the_register :
    start.rx.hdr.length ≤ 36 ∧ (startRx lastOfF1).rx.hdr.length ≤ 36 := by decide

theorem witness_reserved_registers_and_bits :
    (∀ r ∈ ([0x05, 0x0F, 0x12, 0xFF] : Bytes), r.toNat ∉ [0x00, 0x01, 0x02, 0x03, 0x04, 0x10, 0x11]) ∧
      (startRx lastOfF1).rx.hdr.length ≤ 36 := by decide

/-- CapAndRemainAreReadOnlyViews: a state that meets the invariant with payload bytes to come. -/
theorem witness_cap_and_remain_are_read_only_views :
    (narrow lastOfF1).Inv ∧ (narrow lastOfF1).rx.remain ≠ 0 :=
  ⟨narrow_inv _ lastOfF1_consistent (by decide), by decide⟩

theorem witness_repeated_commands_change_nothing_more :
    (∀ i ∈ [Instr.crcRead, .encodeFrame 1 0 [], .decodeFrame [], .cfgRead 0x10], readsOnly i = true) ∧
    ∀ i ∈ [Instr.crcInit, .rxStart, .rxEos, .cfgWrite 0x02 3], consumesInput i = false := by decide

theorem witness_each_component_has_its_own_writers :
    familyOf (.cfgWrite 0x03 0) ≠ .rx ∧ familyOf .rxStart = .rx ∧ familyOf (.decodeFrame []) = .frame ∧
    (regs (exec (.cfgWrite 0x03 0) start)).map Regs.crcAcc ≠ some start.reg.crcAcc ∧
    (regs (exec (.cfgWrite 0x00 0) start)).map Regs.magic ≠ some start.reg.magic ∧
    (regs (exec (.cfgWrite 0x01 0) start)).map Regs.version ≠ some start.reg.version ∧
    exec (.cfgWrite 0x02 0) start =
      .next { start with reg := { start.reg with maxPayload := clampToCap 0 }, responses := [[0x00]] } := by
  refine ⟨by decide, by decide, by decide, by decide, by decide, by decide, rfl⟩

theorem witness_datapaths_are_independent :
    familyOf (.encodeFrame 1 0 []) = .frame ∧ familyOf (.rxByte 0) = .rx ∧ familyOf .crcRead = .crc := by decide

/-- StepKeepsTheParserInvariant: idle, and the last payload byte of F1 on the port. -/
theorem witness_step_keeps_the_parser_invariant :
    (narrow lastOfF1).Inv ∧ completes (step (narrow lastOfF1)) = true ∧
    ({ narrow lastOfF1 with requests := [.command [0x31, 0xEF]] } : State).Inv ∧
    completes (step { narrow lastOfF1 with requests := [.command [0x31, 0xEF]] }) = true := by
  have h := narrow_inv lastOfF1 lastOfF1_consistent (by decide)
  exact ⟨h, rfl, ⟨h.parser, h.maxPayload, h.lastErr⟩, by decide +kernel⟩

/-- ReachableStatesMeetTheInvariant: three steps from reset. -/
theorem witness_reachable_states_meet_the_invariant :
    ∃ t, Host.Core.run Sys2Proof.core 3
      { State.reset with requests := [.command [0x31, 0x46], .command [0x32], .reset] } = .next t := ⟨_, rfl⟩

/-- PayloadBufferNeverOverflows: reset, and a parser in RESYNC; the capacity is OPEN, so no longer payload is known to
fit. -/
theorem witness_payload_buffer_never_overflows :
    (narrow Rx.reset).Inv ∧ (narrow Rx.reset).rx.WithinCapacity ∧ completes (step (narrow Rx.reset)) = true :=
  ⟨narrow_inv _ reset_consistent (by decide), fun h => by simp [narrow, startRx, Rx.reset] at h, rfl⟩

end Sys2Proof.Tests
end

/-! PROOF. The register file: the register a number names, what CFG_READ and CFG_WRITE do with it (R22, R190, R191),
and the fields of STATUS (R28). -/

namespace Sys2Proof.Machine

open Sys2Proof

/-! ## Register numbers -/

/-- The number of a register (R22). -/
def Reg.number : Reg → Byte
  | .magic => 0x00
  | .version => 0x01
  | .maxPayload => 0x02
  | .crcAcc => 0x03
  | .maxPayloadCap => 0x04
  | .status => 0x10
  | .rxRemain => 0x11

@[simp] theorem Reg.ofNumber_number (n : Reg) : Reg.ofNumber n.number = some n := by cases n <;> rfl

theorem Reg.eq_number_of_ofNumber {r : Byte} {n : Reg} (h : Reg.ofNumber r = some n) : r = n.number := by
  unfold Reg.ofNumber at h
  split at h <;> cases h <;> exact BitVec.eq_of_toNat_eq ‹_›

/-- The reserved numbers are those that R22 does not list (R36). -/
theorem Reg.ofNumber_eq_none_iff {r : Byte} :
    Reg.ofNumber r = none ↔ r.toNat ∉ [0x00, 0x01, 0x02, 0x03, 0x04, 0x10, 0x11] := by
  rw [Reg.ofNumber_eq]
  split_ifs <;> simp_all

/-- A register number is the number of a register or reserved. -/
theorem Reg.number_or_reserved (r : Byte) : (∃ n : Reg, r = n.number) ∨ Reg.ofNumber r = none := by
  cases h : Reg.ofNumber r with
  | none => exact .inr rfl
  | some n => exact .inl ⟨n, Reg.eq_number_of_ofNumber h⟩

/-! ## CFG_READ and CFG_WRITE, by what the number names -/

theorem exec_cfgRead_number (n : Reg) (s : State) :
    exec (.cfgRead n.number) s = .next (respond .ok (leBytes 8 (readReg s n).toNat) s) := by
  simp only [exec, execCfgRead, Reg.ofNumber_number]

theorem exec_cfgRead_reserved {r : Byte} (h : Reg.ofNumber r = none) (s : State) :
    exec (.cfgRead r) s = .next (raise .illegalCommand s) := by
  simp only [exec, execCfgRead, h]

theorem exec_cfgWrite_number {n : Reg} {v : U64} {s : State} {reg : Regs} (h : writeReg s.reg v n = some reg) :
    exec (.cfgWrite n.number v) s = .next (respond .ok [] (s.setReg reg)) := by
  simp only [exec, execCfgWrite, Reg.ofNumber_number, Option.bind_some, h]

theorem exec_cfgWrite_readOnly {n : Reg} {v : U64} {s : State} (h : writeReg s.reg v n = none) :
    exec (.cfgWrite n.number v) s = .next (raise .illegalCommand s) := by
  simp only [exec, execCfgWrite, Reg.ofNumber_number, Option.bind_some, h]

theorem exec_cfgWrite_reserved {r : Byte} (h : Reg.ofNumber r = none) (v : U64) (s : State) :
    exec (.cfgWrite r v) s = .next (raise .illegalCommand s) := by
  simp only [exec, execCfgWrite, h, Option.bind_none]

/-- CFG_READ answers and writes no state (R60). -/
theorem exec_cfgRead_answers_only (r : Byte) (s : State) : ∃ st d, exec (.cfgRead r) s = .next (respond st d s) := by
  rcases Reg.number_or_reserved r with ⟨n, rfl⟩ | h
  · exact ⟨_, _, exec_cfgRead_number n s⟩
  · exact ⟨_, _, exec_cfgRead_reserved h s⟩

/-- CFG_WRITE writes the one register it names, or nothing (R191). -/
theorem exec_cfgWrite_cases (r : Byte) (v : U64) (s : State) :
    (∃ n reg, r = n.number ∧ writeReg s.reg v n = some reg ∧
      exec (.cfgWrite r v) s = .next (respond .ok [] (s.setReg reg))) ∨
    exec (.cfgWrite r v) s = .next (raise .illegalCommand s) := by
  rcases Reg.number_or_reserved r with ⟨n, rfl⟩ | h
  · cases hw : writeReg s.reg v n with
    | some reg => exact .inl ⟨n, reg, rfl, hw, exec_cfgWrite_number hw⟩
    | none => exact .inr (exec_cfgWrite_readOnly hw)
  · exact .inr (exec_cfgWrite_reserved h v s)

/-! ## What a register write leaves unchanged -/

/-- A write changes only the register it names (R191). -/
theorem writeReg_frame {reg reg' : Regs} {v : U64} {n : Reg} (h : writeReg reg v n = some reg') :
    (reg'.magic ≠ reg.magic → n = .magic) ∧ (reg'.version ≠ reg.version → n = .version) ∧
      (reg'.maxPayload ≠ reg.maxPayload → n = .maxPayload) ∧ (reg'.crcAcc ≠ reg.crcAcc → n = .crcAcc) := by
  cases n <;> simp only [writeReg, Option.some.injEq, reduceCtorEq] at h <;> subst h <;> simp

/-- A write leaves MAX_PAYLOAD as it is or within MAX_PAYLOAD_CAP (R25). -/
theorem writeReg_maxPayload_le {reg reg' : Regs} {v : U64} {n : Reg} (h : writeReg reg v n = some reg')
    (hreg : reg.maxPayload ≤ Config.maxPayloadCap) : reg'.maxPayload ≤ Config.maxPayloadCap := by
  by_cases hn : n = .maxPayload
  · subst hn
    cases h
    exact clampToCap_le v
  · obtain ⟨-, -, hmax, -⟩ := writeReg_frame h
    rwa [not_imp_comm.mp hmax hn]

/-- The greatest value is clamped to the capacity (R25). -/
theorem clampToCap_allOnes : clampToCap 0xFFFFFFFFFFFFFFFF = Config.maxPayloadCap := by
  apply BitVec.eq_of_toNat_eq
  have hlt := Config.maxPayloadCap.isLt
  rw [toNat_clampToCap]
  exact Nat.min_eq_right (show Config.maxPayloadCap.toNat ≤ 2 ^ 64 - 1 by omega)

theorem clampToCap_eq_ofNat (v : U64) : clampToCap v = BitVec.ofNat 64 (min v.toNat Config.maxPayloadCap.toNat) := by
  rw [← toNat_clampToCap, BitVec.ofNat_toNat, BitVec.setWidth_eq]

/-! ## STATUS -/

/-- The fields of STATUS do not overlap for the header counts of R31, so the register is their sum (R28). -/
theorem toNat_statusView {rx : Rx} (h : rx.hdr.length ≤ 36) :
    (statusView rx).toNat = (stateCode rx.state).toNat + 2 ^ 8 * rx.lastErr.toNat + 2 ^ 16 * rx.hdr.length := by
  have hcode : (stateCode rx.state).toNat < 2 ^ 8 := by cases rx.state <;> decide
  have herr := rx.lastErr.isLt
  have hlow : (stateCode rx.state).toNat ||| rx.lastErr.toNat <<< 8 =
      (stateCode rx.state).toNat + 2 ^ 8 * rx.lastErr.toNat := by
    rw [Nat.or_comm, ← Nat.shiftLeft_add_eq_or_of_lt hcode, Nat.shiftLeft_eq]
    omega
  have hall : ((stateCode rx.state).toNat + 2 ^ 8 * rx.lastErr.toNat) ||| rx.hdr.length <<< 16 =
      (stateCode rx.state).toNat + 2 ^ 8 * rx.lastErr.toNat + 2 ^ 16 * rx.hdr.length := by
    rw [Nat.or_comm, ← Nat.shiftLeft_add_eq_or_of_lt (show _ < 2 ^ 16 by omega), Nat.shiftLeft_eq]
    omega
  have herr64 : (rx.lastErr.setWidth 64 <<< 8).toNat = rx.lastErr.toNat <<< 8 := by
    simp only [BitVec.toNat_shiftLeft, BitVec.toNat_setWidth, Nat.shiftLeft_eq]
    omega
  have hlen64 : (BitVec.ofNat 64 rx.hdr.length <<< 16).toNat = rx.hdr.length <<< 16 := by
    simp only [BitVec.toNat_shiftLeft, BitVec.toNat_ofNat, Nat.shiftLeft_eq]
    omega
  rw [statusView, BitVec.toNat_or, BitVec.toNat_or, herr64, hlen64, hlow, hall]

theorem toNat_stateCode (st : RxState) :
    (stateCode st).toNat = match st with | .header => 0 | .payload => 1 | .resync => 2 | .closed => 3 := by
  cases st <;> rfl

/-! ## The statements -/

/-- Settles O45, by the register the number names. -/
theorem cfgReadReturnsTheRegister : Obligations.CfgReadReturnsTheRegister := by
  intro r s hlen
  rcases Reg.number_or_reserved r with ⟨n, rfl⟩ | h
  · rw [exec_cfgRead_number]
    cases n with
    | magic => rw [readReg, BitVec.toNat_setWidth_of_le (by decide)]; rfl
    | version => rw [readReg, BitVec.toNat_setWidth_of_le (by decide)]; rfl
    | maxPayload => rfl
    | crcAcc => rw [readReg, BitVec.toNat_setWidth_of_le (by decide)]; rfl
    | maxPayloadCap => rfl
    | status => rw [readReg, toNat_statusView hlen, toNat_stateCode]; rfl
    | rxRemain => rfl
  · rw [exec_cfgRead_reserved h]
    have hlist := Reg.ofNumber_eq_none_iff.mp h
    simp_all [raise, respond, Status.packet, Status.code]

/-- Settles O46, by the register the number names. -/
theorem cfgWriteStoresTheRegister : Obligations.CfgWriteStoresTheRegister := by
  intro r v s
  rcases Reg.number_or_reserved r with ⟨n, rfl⟩ | h
  · cases n with
    | magic => exact exec_cfgWrite_number (n := .magic) rfl
    | version => exact exec_cfgWrite_number (n := .version) rfl
    | maxPayload =>
      rw [exec_cfgWrite_number (n := .maxPayload) rfl, clampToCap_eq_ofNat]
      rfl
    | crcAcc => exact exec_cfgWrite_number (n := .crcAcc) rfl
    | maxPayloadCap => exact exec_cfgWrite_readOnly (n := .maxPayloadCap) rfl
    | status => exact exec_cfgWrite_readOnly (n := .status) rfl
    | rxRemain => exact exec_cfgWrite_readOnly (n := .rxRemain) rfl
  · rw [exec_cfgWrite_reserved h]
    have hlist := Reg.ofNumber_eq_none_iff.mp h
    simp_all [raise, respond, Status.packet, Status.code]

/-- Settles O47: the reserved bits are those that no field of the sum `toNat_statusView` reaches. -/
theorem reservedRegistersAndBits : Obligations.ReservedRegistersAndBits := by
  refine ⟨fun r v s h => ?_, fun s hlen => ?_, fun v s => exec_cfgWrite_readOnly (n := .status) rfl⟩
  · have hnone := Reg.ofNumber_eq_none_iff.mpr h
    exact ⟨exec_cfgRead_reserved hnone s, exec_cfgWrite_reserved hnone v s⟩
  · have hval := toNat_statusView hlen
    have hcode : (stateCode s.rx.state).toNat < 4 := by cases s.rx.state <;> decide
    have herr := s.rx.lastErr.isLt
    constructor <;> apply BitVec.eq_of_toNat_eq <;>
      simp only [readReg, BitVec.extractLsb_toNat, Nat.shiftRight_eq_div_pow, hval, BitVec.ofNat_eq_ofNat,
        BitVec.toNat_ofNat, Nat.zero_mod] <;> omega

end Sys2Proof.Machine

/-! PROOF. The transition table of RX_BYTE (R160) as a relation on the parser alone, and what each of its rows does to
the invariant of R38. -/

namespace Sys2Proof.Machine

open Sys2Proof

/-! ## The parser errors -/

/-- The four errors an RX_BYTE can return for a frame (R34, R164). -/
def parserErrors : List Status := [.invalidHeader, .unsupportedVersion, .payloadTooLarge, .crcMismatch]

theorem headerError_mem_parserErrors {reg : Regs} {f : Bytes} {e : Status} (h : headerError reg f = some e) :
    e ∈ parserErrors := by
  rcases headerError_eq_some h with ⟨rfl, -⟩ | ⟨rfl, -⟩ | ⟨rfl, -⟩ <;> decide

/-- The codes R34 lists are those of the parser errors. -/
theorem code_mem_errorCodes_iff (st : Status) :
    st.code.toNat ∈ [0x10, 0x11, 0x12, 0x13] ↔ st ∈ parserErrors := by
  cases st <;> decide

theorem code_mem_lastErrValues {e : Status} (h : e ∈ parserErrors) : e.code ∈ lastErrValues := by
  revert h
  cases e <;> decide

/-! ## The rows of the transition table -/

/-- RX_BYTE `b` can take the parser `rx` to another, with a response of the given status. -/
inductive Rx.Move (reg : Regs) (b : Byte) (rx : Rx) : Status → Rx → Prop where
  /-- CLOSED discards the byte (R165). -/
  | discard (hs : rx.state = .closed) : Move reg b rx .closed rx
  /-- RESYNC slides the search window (R170). -/
  | scan (hs : rx.state = .resync) : Move reg b rx .needMore (resyncWindow reg.magic b rx)
  /-- HEADER takes a byte before the 36th (R161). -/
  | collectHeader (hs : rx.state = .header) (hlen : rx.hdr.length < 35) :
    Move reg b rx .needMore { rx with hdr := rx.hdr ++ [b] }
  /-- HEADER accepts the header of a frame with a payload (R161). -/
  | accept (hs : rx.state = .header) (hlen : 35 ≤ rx.hdr.length) (hok : headerError reg (rx.hdr ++ [b]) = none)
      (hsize : payloadSizeOf (rx.hdr ++ [b]) ≠ 0#64) :
    Move reg b rx .headerOk
      { rx with state := .payload, hdr := rx.hdr ++ [b], buf := [], remain := payloadSizeOf (rx.hdr ++ [b]) }
  /-- PAYLOAD takes a byte before the last (R162). -/
  | collectPayload (hs : rx.state = .payload) (hmore : rx.remain ≠ 1#64) :
    Move reg b rx .needMore { rx with buf := rx.buf ++ [b], remain := rx.remain - 1#64 }
  /-- A frame is complete and its CRC good (R163). -/
  | deliver (hs : rx.state = .header ∨ rx.state = .payload) : Move reg b rx .frame (Rx.cleared .header rx.lastErr)
  /-- A frame is dropped with an error (R164). -/
  | drop (hs : rx.state = .header ∨ rx.state = .payload) {e : Status} (he : e ∈ parserErrors) :
    Move reg b rx e (Rx.cleared .resync e.code)

/-- A complete frame is delivered or dropped (R163). -/
theorem finishFrame_move {reg : Regs} {b : Byte} {rx : Rx} (hs : rx.state = .header ∨ rx.state = .payload) (s : State)
    (he : s.rx.lastErr = rx.lastErr) :
    ∃ st d rx', Rx.Move reg b rx st rx' ∧ finishFrame s = respond st d (s.setRx rx') := by
  rcases finishFrame_cases s with ⟨-, h⟩ | ⟨-, h⟩
  · exact ⟨_, _, _, .deliver hs, by rw [h, he]⟩
  · exact ⟨.crcMismatch, [], _, .drop hs (by decide), h⟩

/-- RX_BYTE always completes with one response, changes the parser only, and does so by a row of the table (R160). -/
theorem execRxByte_move (b : Byte) (s : State) :
    ∃ st d rx', Rx.Move s.reg b s.rx st rx' ∧ execRxByte b s = .next (respond st d (s.setRx rx')) := by
  obtain ⟨t, ht, h⟩ := execRxByte_cases b s
  rw [ht]
  rcases h with ⟨hs, rfl⟩ | ⟨hs, rfl⟩ | ⟨hs, hmore, rfl⟩ | ⟨hs, -, rfl⟩ | ⟨hs, hlen, rfl⟩ | ⟨hs, -, e, he, rfl⟩ |
    ⟨hs, -, -, -, rfl⟩ | ⟨hs, hlen, hok, hsize, rfl⟩
  · exact ⟨.closed, [], s.rx, .discard hs, rfl⟩
  · exact ⟨_, _, _, .scan hs, rfl⟩
  · exact ⟨_, _, _, .collectPayload hs hmore, rfl⟩
  · obtain ⟨st, d, rx', hmove, hfin⟩ := finishFrame_move (reg := s.reg) (b := b) (.inr hs)
      (s.setRx { s.rx with buf := s.rx.buf ++ [b], remain := 0#64 }) rfl
    exact ⟨st, d, rx', hmove, congrArg _ hfin⟩
  · exact ⟨_, _, _, .collectHeader hs hlen, rfl⟩
  · exact ⟨_, _, _, .drop (.inl hs) (headerError_mem_parserErrors he), rfl⟩
  · obtain ⟨st, d, rx', hmove, hfin⟩ := finishFrame_move (reg := s.reg) (b := b) (.inl hs)
      (s.setRx { s.rx with hdr := s.rx.hdr ++ [b] }) rfl
    exact ⟨st, d, rx', hmove, congrArg _ hfin⟩
  · exact ⟨_, _, _, .accept hs hlen hok hsize, rfl⟩

/-! ## What a row does to `rx.last_err` -/

/-- A row records the code of the error it answers and keeps `rx.last_err` otherwise (R34). -/
theorem Rx.Move.lastErr {reg : Regs} {b : Byte} {rx rx' : Rx} {st : Status} (h : Rx.Move reg b rx st rx') :
    rx'.lastErr = if st ∈ parserErrors then st.code else rx.lastErr := by
  cases h with
  | discard => rfl
  | scan =>
    rcases resyncWindow_cases reg.magic b rx with ⟨-, -, h⟩ | ⟨-, -, h⟩ | ⟨-, h⟩ <;> rw [h] <;> rfl
  | collectHeader => rfl
  | accept => rfl
  | collectPayload => rfl
  | deliver => rfl
  | drop hs he => rw [if_pos he]; rfl

/-- `rx.last_err` stays one of its five values (R38). -/
theorem Rx.Move.lastErr_mem {reg : Regs} {b : Byte} {rx rx' : Rx} {st : Status} (h : Rx.Move reg b rx st rx')
    (hrx : rx.lastErr ∈ lastErrValues) : rx'.lastErr ∈ lastErrValues := by
  rw [h.lastErr]
  split
  · exact code_mem_lastErrValues ‹_›
  · exact hrx

/-! ## The clauses of R38, state by state -/

theorem Rx.consistent_header {rx : Rx} (h : rx.state = .header) :
    rx.Consistent ↔ rx.hdr.length ≤ 35 ∧ rx.buf = [] ∧ rx.remain = 0 := by
  simp only [Rx.Consistent, h]

theorem Rx.consistent_payload {rx : Rx} (h : rx.state = .payload) :
    rx.Consistent ↔ rx.hdr.length = 36 ∧ 1 ≤ leAt 8 rx.hdr 16 ∧
      rx.buf.length + rx.remain.toNat = leAt 8 rx.hdr 16 ∧ 1 ≤ rx.remain.toNat := by
  simp only [Rx.Consistent, h]

theorem Rx.consistent_resync {rx : Rx} (h : rx.state = .resync) :
    rx.Consistent ↔ rx.hdr.length ≤ 3 ∧ rx.buf = [] ∧ rx.remain = 0 := by
  simp only [Rx.Consistent, h]

theorem Rx.consistent_closed {rx : Rx} (h : rx.state = .closed) :
    rx.Consistent ↔ rx.hdr = [] ∧ rx.buf = [] ∧ rx.remain = 0 := by
  simp only [Rx.Consistent, h]

/-- The empty parser is consistent in every state but PAYLOAD. -/
theorem Rx.cleared_consistent {st : RxState} (h : st ≠ .payload) (e : Byte) : (Rx.cleared st e).Consistent := by
  cases st with
  | header => exact (Rx.consistent_header rfl).mpr ⟨Nat.zero_le _, rfl, rfl⟩
  | payload => exact absurd rfl h
  | resync => exact (Rx.consistent_resync rfl).mpr ⟨Nat.zero_le _, rfl, rfl⟩
  | closed => exact (Rx.consistent_closed rfl).mpr ⟨rfl, rfl, rfl⟩

/-- Bytes are to come only in PAYLOAD (R29). -/
theorem Rx.Consistent.remain_eq_zero {rx : Rx} (h : rx.Consistent) (hs : rx.state ≠ .payload) : rx.remain = 0 := by
  cases hst : rx.state with
  | header => exact ((Rx.consistent_header hst).mp h).2.2
  | payload => exact absurd hst hs
  | resync => exact ((Rx.consistent_resync hst).mp h).2.2
  | closed => exact ((Rx.consistent_closed hst).mp h).2.2

/-- Payload bytes are held only in PAYLOAD (R32). -/
theorem Rx.Consistent.buf_eq_nil {rx : Rx} (h : rx.Consistent) (hs : rx.state ≠ .payload) : rx.buf = [] := by
  cases hst : rx.state with
  | header => exact ((Rx.consistent_header hst).mp h).2.1
  | payload => exact absurd hst hs
  | resync => exact ((Rx.consistent_resync hst).mp h).2.1
  | closed => exact ((Rx.consistent_closed hst).mp h).2.1

/-- The search window keeps to its clause, and four bytes of it begin a header (R170). -/
theorem resyncWindow_consistent {rx : Rx} (hs : rx.state = .resync) (h : rx.Consistent) (magic : U32) (b : Byte) :
    (resyncWindow magic b rx).Consistent := by
  obtain ⟨hhdr, hbuf, hremain⟩ := (Rx.consistent_resync hs).mp h
  rcases resyncWindow_cases magic b rx with ⟨h3, -, hw⟩ | ⟨h3, -, hw⟩ | ⟨h3, hw⟩ <;> rw [hw]
  · exact (Rx.consistent_header rfl).mpr ⟨by simp [h3], hbuf, hremain⟩
  · exact (Rx.consistent_resync (rx := { rx with hdr := rx.hdr.drop 1 ++ [b] }) hs).mpr
      ⟨by simp [h3], hbuf, hremain⟩
  · exact (Rx.consistent_resync (rx := { rx with hdr := rx.hdr ++ [b] }) hs).mpr
      ⟨by simp only [List.length_append, List.length_singleton]; omega, hbuf, hremain⟩

/-- Every row keeps the parser's clauses of R38. -/
theorem Rx.Move.consistent {reg : Regs} {b : Byte} {rx rx' : Rx} {st : Status} (hmove : Rx.Move reg b rx st rx')
    (h : rx.Consistent) : rx'.Consistent := by
  cases hmove with
  | discard => exact h
  | scan hs => exact resyncWindow_consistent hs h reg.magic b
  | collectHeader hs hlen =>
    obtain ⟨-, hbuf, hremain⟩ := (Rx.consistent_header hs).mp h
    exact (Rx.consistent_header (rx := { rx with hdr := rx.hdr ++ [b] }) hs).mpr
      ⟨by simp only [List.length_append, List.length_singleton]; omega, hbuf, hremain⟩
  | accept hs hlen hok hsize =>
    obtain ⟨hhdr, -, -⟩ := (Rx.consistent_header hs).mp h
    have hpos : leAt 8 (rx.hdr ++ [b]) 16 ≠ 0 := by
      rw [← toNat_payloadSizeOf]
      exact fun h0 => hsize (BitVec.eq_of_toNat_eq h0)
    have hlen36 : (rx.hdr ++ [b]).length = 36 := by simp only [List.length_append, List.length_singleton]; omega
    exact (Rx.consistent_payload rfl).mpr
      ⟨hlen36, Nat.one_le_iff_ne_zero.mpr hpos, by simp, by simpa using Nat.one_le_iff_ne_zero.mpr hpos⟩
  | collectPayload hs hmore =>
    obtain ⟨hhdr, hsize, hsum, hpos⟩ := (Rx.consistent_payload hs).mp h
    have hne : rx.remain.toNat ≠ 1 := fun h1 => hmore (BitVec.eq_of_toNat_eq h1)
    have hlt := rx.remain.isLt
    have hdec : (rx.remain - 1#64).toNat = rx.remain.toNat - 1 := by
      simp only [BitVec.toNat_sub, BitVec.toNat_ofNat]
      omega
    have hsum' : (rx.buf ++ [b]).length + (rx.remain - 1#64).toNat = leAt 8 rx.hdr 16 := by
      rw [hdec, List.length_append, List.length_singleton]
      omega
    have hpos' : 1 ≤ (rx.remain - 1#64).toNat := by omega
    exact (Rx.consistent_payload (rx := { rx with buf := rx.buf ++ [b], remain := rx.remain - 1#64 }) hs).mpr
      ⟨hhdr, hsize, hsum', hpos'⟩
  | deliver => exact Rx.cleared_consistent (by decide) _
  | drop => exact Rx.cleared_consistent (by decide) _

/-! ## The capacity -/

theorem Rx.withinCapacity_of_ne_payload {rx : Rx} (h : rx.state ≠ .payload) : rx.WithinCapacity :=
  fun hs => absurd hs h

theorem Rx.cleared_withinCapacity {st : RxState} (h : st ≠ .payload) (e : Byte) : (Rx.cleared st e).WithinCapacity :=
  Rx.withinCapacity_of_ne_payload h

/-- A header is accepted only with a size within MAX_PAYLOAD, and later rows keep that header (R25, R161). -/
theorem Rx.Move.withinCapacity {reg : Regs} {b : Byte} {rx rx' : Rx} {st : Status} (hmove : Rx.Move reg b rx st rx')
    (hreg : reg.maxPayload ≤ Config.maxPayloadCap) (h : rx.WithinCapacity) : rx'.WithinCapacity := by
  cases hmove with
  | discard => exact h
  | scan hs =>
    apply Rx.withinCapacity_of_ne_payload
    rcases resyncWindow_cases reg.magic b rx with ⟨-, -, hw⟩ | ⟨-, -, hw⟩ | ⟨-, hw⟩ <;> rw [hw] <;> simp [hs]
  | collectHeader hs => exact Rx.withinCapacity_of_ne_payload (by simp [hs])
  | accept hs hlen hok =>
    intro _
    obtain ⟨-, -, hsize⟩ := headerError_eq_none.mp hok
    rw [BitVec.lt_def, toNat_payloadSizeOf] at hsize
    rw [BitVec.le_def] at hreg
    exact (Nat.le_of_not_lt hsize).trans hreg
  | collectPayload => exact h
  | deliver => exact Rx.cleared_withinCapacity (by decide) _
  | drop => exact Rx.cleared_withinCapacity (by decide) _

/-- The payload buffer holds at most the frame's payload, so at most the capacity (R32). -/
theorem Rx.Consistent.buf_length_le {rx : Rx} (h : rx.Consistent) (hcap : rx.WithinCapacity) :
    rx.buf.length ≤ Config.maxPayloadCap.toNat := by
  by_cases hs : rx.state = .payload
  · obtain ⟨-, -, hsum, -⟩ := (Rx.consistent_payload hs).mp h
    have := hcap hs
    omega
  · simp [h.buf_eq_nil hs]

end Sys2Proof.Machine

/-! PROOF. What a command reads and writes (R26, R35): one lemma for each group of commands, and completion of command
sequences (R58, R87). -/

namespace Sys2Proof.Machine

open Sys2Proof

/-! ## Completion -/

theorem execAll_cons_of_next {i : Instr} {s t : State} (h : exec i s = .next t) (is : List Instr) :
    execAll (i :: is) s = execAll is t := by
  simp only [execAll, h]

/-- A sequence of commands completes with one response for each (R58). -/
theorem execAll_completes (is : List Instr) (s : State) :
    ∃ t rs, execAll is s = .next t ∧ t.responses = s.responses ++ rs ∧ rs.length = is.length := by
  induction is generalizing s with
  | nil => exact ⟨s, [], rfl, by simp, rfl⟩
  | cons i is ih =>
    obtain ⟨u, st, d, hu, hresp, -⟩ := exec_answers i s
    obtain ⟨t, rs, ht, hrs, hlen⟩ := ih u
    exact ⟨t, st.packet d :: rs, by rw [execAll_cons_of_next hu, ht], by simp [hrs, hresp], by simp [hlen]⟩

/-! ## The CRC commands -/

/-- A CRC command reads and writes CRC_ACC alone. -/
theorem exec_crc {i : Instr} (hi : familyOf i = .crc) :
    ∃ (next : U32 → U32) (data : U32 → Bytes), ∀ s : State,
      exec i s = .next (respond .ok (data s.reg.crcAcc) (s.setCrcAcc (next s.reg.crcAcc))) := by
  cases i with
  | crcInit => exact ⟨fun _ => crcInitial, fun _ => [], fun _ => rfl⟩
  | crcByte b => exact ⟨fun acc => crcStep acc b, fun _ => [], fun _ => rfl⟩
  | crcBlock m => exact ⟨fun acc => crcFold acc m, fun _ => [], fun _ => rfl⟩
  | crcRead => exact ⟨id, fun acc => leBytes 4 (acc ^^^ crcFinalXor).toNat, fun _ => rfl⟩
  | _ => simp [familyOf] at hi

/-! ## ENCODE and DECODE -/

/-- Two register records with one MAGIC, VERSION and MAX_PAYLOAD. -/
def Regs.SameConfig (a b : Regs) : Prop :=
  a.magic = b.magic ∧ a.version = b.version ∧ a.maxPayload = b.maxPayload

theorem Regs.sameConfig_refl (a : Regs) : a.SameConfig a := ⟨rfl, rfl, rfl⟩

theorem headerError_congr_config {a b : Regs} (h : a.SameConfig b) (f : Bytes) : headerError a f = headerError b f := by
  obtain ⟨hmagic, hversion, hmax⟩ := h
  simp only [headerError, hmagic, hversion, hmax]

theorem decodeError_congr_config {a b : Regs} (h : a.SameConfig b) (f : Bytes) : decodeError a f = decodeError b f := by
  simp only [decodeError, headerError_congr_config h]

theorem buildFrame_congr_config {a b : Regs} (h : a.SameConfig b) (seq : U64) (flags : U16) (payload : Bytes) :
    buildFrame a seq flags payload = buildFrame b seq flags payload := by
  obtain ⟨hmagic, hversion, -⟩ := h
  simp only [buildFrame, headerBytes, hmagic, hversion]

/-- ENCODE and DECODE write no state, and answer from MAGIC, VERSION and MAX_PAYLOAD alone. -/
theorem exec_frame {i : Instr} (hi : familyOf i = .frame) (reg : Regs) :
    ∃ st d, ∀ s : State, s.reg.SameConfig reg → exec i s = .next (respond st d s) := by
  cases i with
  | encodeFrame seq flags payload =>
    by_cases hsize : reg.maxPayload.toNat < payload.length
    · refine ⟨.payloadTooLarge, [], fun s h => ?_⟩
      obtain ⟨-, -, hmax⟩ := h
      simp only [exec, execEncode, hmax, if_pos hsize, raise]
    · refine ⟨.ok, buildFrame reg seq flags payload, fun s h => ?_⟩
      rw [← buildFrame_congr_config h]
      obtain ⟨-, -, hmax⟩ := h
      simp only [exec, execEncode, hmax, if_neg hsize]
  | decodeFrame buf =>
    cases herr : decodeError reg buf with
    | some e =>
      refine ⟨e, [], fun s h => ?_⟩
      simp only [exec, execDecode, decodeError_congr_config h, herr, raise]
    | none =>
      refine ⟨.frame, slice buf 0 (headerLength + (payloadSizeOf buf).toNat), fun s h => ?_⟩
      simp only [exec, execDecode, decodeError_congr_config h, herr]
  | _ => simp [familyOf] at hi

/-! ## The RX commands -/

theorem familyOf_eq_rx {i : Instr} : familyOf i = .rx ↔ i = .rxStart ∨ (∃ b, i = .rxByte b) ∨ i = .rxEos := by
  cases i <;> simp [familyOf]

/-- Finishing a frame reads and writes no register. -/
theorem finishFrame_setReg (s : State) (reg : Regs) : finishFrame (s.setReg reg) = (finishFrame s).setReg reg := by
  unfold finishFrame
  rw [apply_ite (State.setReg · reg)]
  rfl

/-- A payload byte reads and writes no register. -/
theorem payloadByte_setReg (b : Byte) (s : State) (reg : Regs) :
    payloadByte b (s.setReg reg) = (payloadByte b s).setReg reg := by
  simp only [payloadByte]
  rw [apply_ite (State.setReg · reg), ← finishFrame_setReg]
  rfl

/-- The header checks read MAGIC, VERSION and MAX_PAYLOAD alone. -/
theorem validateHeader_setReg (s : State) {reg : Regs} (h : reg.SameConfig s.reg) :
    validateHeader (s.setReg reg) = (validateHeader s).setReg reg := by
  simp only [validateHeader, State.setReg_rx, State.setReg_reg, headerError_congr_config h]
  cases headerError s.reg s.rx.hdr with
  | some e => rfl
  | none =>
    simp only [apply_ite (State.setReg · reg), ← finishFrame_setReg]
    rfl

theorem headerByte_setReg (b : Byte) (s : State) {reg : Regs} (h : reg.SameConfig s.reg) :
    headerByte b (s.setReg reg) = (headerByte b s).setReg reg := by
  have hval := validateHeader_setReg (s.setRx { s.rx with hdr := s.rx.hdr ++ [b] }) h
  simp only [headerByte]
  rw [apply_ite (State.setReg · reg), ← hval]
  rfl

theorem resyncByte_setReg (b : Byte) (s : State) {reg : Regs} (h : reg.SameConfig s.reg) :
    resyncByte b (s.setReg reg) = (resyncByte b s).setReg reg := by
  obtain ⟨hmagic, -, -⟩ := h
  simp only [resyncByte, State.setReg_rx, State.setReg_reg, hmagic]
  rfl

/-- RX_BYTE reads MAGIC, VERSION and MAX_PAYLOAD alone of the registers (R168). -/
theorem execRxByte_setReg {b : Byte} {s t : State} {reg : Regs} (h : reg.SameConfig s.reg)
    (ht : execRxByte b s = .next t) : execRxByte b (s.setReg reg) = .next (t.setReg reg) := by
  simp only [execRxByte, State.setReg_rx] at ht ⊢
  cases hs : s.rx.state with
  | closed =>
    simp only [hs] at ht ⊢
    cases ht
    rfl
  | resync =>
    simp only [hs] at ht ⊢
    cases ht
    rw [resyncByte_setReg b s h]
  | payload =>
    simp only [hs] at ht ⊢
    cases ht
    rw [payloadByte_setReg]
  | header =>
    simp only [hs] at ht ⊢
    cases ht
    rw [headerByte_setReg b s h]

/-- An RX command completes, keeps every register and reads none but MAGIC, VERSION and MAX_PAYLOAD. -/
theorem exec_rx {i : Instr} (hi : familyOf i = .rx) (s : State) :
    ∃ st d rx, exec i s = .next (respond st d (s.setRx rx)) ∧
      ∀ reg : Regs, reg.SameConfig s.reg → exec i (s.setReg reg) = .next ((respond st d (s.setRx rx)).setReg reg) := by
  rcases familyOf_eq_rx.mp hi with rfl | ⟨b, rfl⟩ | rfl
  · exact ⟨_, _, _, rfl, fun _ _ => rfl⟩
  · obtain ⟨st, d, rx, -, hexec⟩ := execRxByte_move b s
    exact ⟨st, d, rx, hexec, fun reg h => execRxByte_setReg h hexec⟩
  · exact ⟨_, _, _, rfl, fun _ _ => rfl⟩

/-! ## CFG_READ and CFG_WRITE -/

/-- A CFG command writes the register that a CFG_WRITE names, or nothing. -/
theorem exec_cfg {i : Instr} (hi : familyOf i = .cfg) (s : State) :
    ∃ st d reg, exec i s = .next (respond st d (s.setReg reg)) ∧
      (reg = s.reg ∨ ∃ n v, i = .cfgWrite n.number v ∧ writeReg s.reg v n = some reg) := by
  cases i with
  | cfgRead r =>
    obtain ⟨st, d, h⟩ := exec_cfgRead_answers_only r s
    exact ⟨st, d, s.reg, h, .inl rfl⟩
  | cfgWrite r v =>
    rcases exec_cfgWrite_cases r v s with ⟨n, reg, rfl, hw, h⟩ | h
    · exact ⟨_, _, reg, h, .inr ⟨n, v, rfl, hw⟩⟩
    · exact ⟨_, [], s.reg, h, .inl rfl⟩
  | _ => simp [familyOf] at hi

/-! ## The parser's writers -/

/-- A command outside the RX group keeps the parser (R35). -/
theorem exec_keeps_rx {i : Instr} (hi : familyOf i ≠ .rx) (s : State) : ∃ t, exec i s = .next t ∧ t.rx = s.rx := by
  cases hf : familyOf i with
  | crc =>
    obtain ⟨next, data, h⟩ := exec_crc hf
    exact ⟨_, h s, rfl⟩
  | frame =>
    obtain ⟨st, d, h⟩ := exec_frame hf s.reg
    exact ⟨_, h s s.reg.sameConfig_refl, rfl⟩
  | rx => exact absurd hf hi
  | cfg =>
    obtain ⟨st, d, reg, h, -⟩ := exec_cfg hf s
    exact ⟨_, h, rfl⟩

/-! ## The statements -/

/-- Settles O49: RX_FEED by induction on its bytes, CRC_OF and CFG_DEFAULTS by their three commands. -/
theorem pseudoCommandsExpand : Obligations.PseudoCommandsExpand := by
  refine ⟨fun bs s => ?_, fun m s => ?_, fun s => ?_⟩
  · obtain ⟨t, rs, ht, hresp, hlen⟩ := execAll_completes (bs.map Instr.rxByte) s
    exact ⟨t, rs, ht, ht, hresp, by simpa using hlen⟩
  · rw [expand, execAll_cons_of_next rfl, execAll_cons_of_next rfl, execAll_cons_of_next rfl, execAll]
    simp [respond, State.setCrcAcc, State.setReg, Status.packet, Status.code, crc32, crcFold, crcInitial, crcFinalXor]
  · have hexpand : expand .cfgDefaults = [.cfgWrite Reg.magic.number 0x44535746, .cfgWrite Reg.version.number 1,
        .cfgWrite Reg.maxPayload.number 0xFFFFFFFFFFFFFFFF] := rfl
    rw [hexpand, execAll_cons_of_next (exec_cfgWrite_number (n := .magic) rfl),
      execAll_cons_of_next (exec_cfgWrite_number (n := .version) rfl),
      execAll_cons_of_next (exec_cfgWrite_number (n := .maxPayload) rfl), execAll, clampToCap_allOnes]
    simp [respond, State.setReg, Status.packet, Status.code]

/-- Settles O51, by the group of the command. -/
theorem eachComponentHasItsOwnWriters : Obligations.EachComponentHasItsOwnWriters := by
  intro i s
  cases hf : familyOf i with
  | crc =>
    obtain ⟨next, data, h⟩ := exec_crc hf
    exact ⟨_, h s, rfl, rfl, by simp⟩
  | frame =>
    obtain ⟨st, d, h⟩ := exec_frame hf s.reg
    exact ⟨_, h s s.reg.sameConfig_refl, rfl, rfl, by simp⟩
  | rx =>
    obtain ⟨st, d, rx, h, -⟩ := exec_rx hf s
    exact ⟨_, h, rfl, rfl, by simp⟩
  | cfg =>
    obtain ⟨st, d, reg, h, hreg | ⟨n, v, rfl, hw⟩⟩ := exec_cfg hf s
    · exact ⟨_, h, rfl, rfl, by simp [hreg]⟩
    · obtain ⟨hmagic, hversion, hmax, hcrc⟩ := writeReg_frame hw
      refine ⟨_, h, rfl, rfl, fun _ => rfl, by simp, by simp, fun hne => .inr ⟨v, ?_⟩, fun hne => ⟨v, ?_⟩,
        fun hne => ⟨v, ?_⟩, fun hne => ⟨v, ?_⟩⟩
      · rw [hcrc hne]; rfl
      · rw [hmagic hne]; rfl
      · rw [hversion hne]; rfl
      · rw [hmax hne]; rfl

/-- Settles O52: each group's effect is stated above without the component it does not read. -/
theorem datapathsAreIndependent : Obligations.DatapathsAreIndependent := by
  refine ⟨fun i s acc hi => ?_, fun i s rx hi => ?_, fun i s magic version maxPayload hi => ?_⟩
  · rcases hi with hi | hi
    · obtain ⟨st, d, h⟩ := exec_frame hi s.reg
      exact ⟨_, h s s.reg.sameConfig_refl, h (s.setCrcAcc acc) ⟨rfl, rfl, rfl⟩⟩
    · obtain ⟨st, d, rx, h, hreg⟩ := exec_rx hi s
      exact ⟨_, h, hreg { s.reg with crcAcc := acc } ⟨rfl, rfl, rfl⟩⟩
  · rcases hi with hi | hi
    · obtain ⟨st, d, h⟩ := exec_frame hi s.reg
      exact ⟨_, h s s.reg.sameConfig_refl, h (s.setRx rx) s.reg.sameConfig_refl⟩
    · obtain ⟨next, data, h⟩ := exec_crc hi
      exact ⟨_, h s, h (s.setRx rx)⟩
  · obtain ⟨next, data, h⟩ := exec_crc hi
    exact ⟨_, h s, h (s.setReg { s.reg with magic := magic, version := version, maxPayload := maxPayload })⟩

end Sys2Proof.Machine

/-! PROOF. What every command, every step and every run keeps: the invariant of R38, the capacity of the payload buffer
(R32) and the error record (R34). -/

namespace Sys2Proof.Machine

open Sys2Proof

/-! ## What a command does to the parser and to MAX_PAYLOAD -/

/-- A command keeps the parser, empties it outside PAYLOAD, or is an RX_BYTE (R35, R166, R167). -/
theorem exec_rx_cases {i : Instr} {s t : State} (h : exec i s = .next t) :
    t.rx = s.rx ∨ (∃ st e, st ≠ .payload ∧ (e = 0x00 ∨ e = s.rx.lastErr) ∧ t.rx = Rx.cleared st e) ∨
      ∃ b st, Rx.Move s.reg b s.rx st t.rx := by
  by_cases hi : familyOf i = .rx
  · rcases familyOf_eq_rx.mp hi with rfl | ⟨b, rfl⟩ | rfl
    · cases h
      exact .inr (.inl ⟨.header, 0x00, by decide, .inl rfl, rfl⟩)
    · obtain ⟨st, d, rx, hmove, hexec⟩ := execRxByte_move b s
      cases h.symm.trans hexec
      exact .inr (.inr ⟨b, st, hmove⟩)
    · cases h
      exact .inr (.inl ⟨.closed, s.rx.lastErr, by decide, .inr rfl, rfl⟩)
  · obtain ⟨u, hu, hrx⟩ := exec_keeps_rx hi s
    cases h.symm.trans hu
    exact .inl hrx

/-- Every command keeps MAX_PAYLOAD within MAX_PAYLOAD_CAP (R25). -/
theorem exec_keeps_maxPayload_le {i : Instr} {s t : State} (h : exec i s = .next t)
    (hs : s.reg.maxPayload ≤ Config.maxPayloadCap) : t.reg.maxPayload ≤ Config.maxPayloadCap := by
  cases hf : familyOf i with
  | crc =>
    obtain ⟨next, data, hu⟩ := exec_crc hf
    cases h.symm.trans (hu s)
    exact hs
  | frame =>
    obtain ⟨st, d, hu⟩ := exec_frame hf s.reg
    cases h.symm.trans (hu s s.reg.sameConfig_refl)
    exact hs
  | rx =>
    obtain ⟨st, d, rx, hu, -⟩ := exec_rx hf s
    cases h.symm.trans hu
    exact hs
  | cfg =>
    obtain ⟨st, d, reg, hu, hreg⟩ := exec_cfg hf s
    cases h.symm.trans hu
    rcases hreg with rfl | ⟨n, v, -, hw⟩
    · exact hs
    · exact writeReg_maxPayload_le hw hs

/-- Every command keeps the invariant of R38. -/
theorem exec_keeps_inv {i : Instr} {s t : State} (h : exec i s = .next t) (hs : s.Inv) : t.Inv := by
  have hmax := exec_keeps_maxPayload_le h hs.maxPayload
  rcases exec_rx_cases h with hrx | ⟨st, e, hst, he, hrx⟩ | ⟨b, st, hmove⟩
  · exact ⟨hrx ▸ hs.parser, hmax, hrx ▸ hs.lastErr⟩
  · refine ⟨hrx ▸ Rx.cleared_consistent hst e, hmax, ?_⟩
    rw [hrx, Rx.cleared_lastErr]
    rcases he with rfl | rfl
    · decide
    · exact hs.lastErr
  · exact ⟨hmove.consistent hs.parser, hmax, hmove.lastErr_mem hs.lastErr⟩

/-- Every command keeps a frame in progress within the capacity (R32). -/
theorem exec_keeps_withinCapacity {i : Instr} {s t : State} (h : exec i s = .next t)
    (hmax : s.reg.maxPayload ≤ Config.maxPayloadCap) (hs : s.rx.WithinCapacity) : t.rx.WithinCapacity := by
  rcases exec_rx_cases h with hrx | ⟨st, e, hst, -, hrx⟩ | ⟨b, st, hmove⟩
  · exact hrx ▸ hs
  · exact hrx ▸ Rx.cleared_withinCapacity hst e
  · exact hmove.withinCapacity hmax hs

/-! ## From commands to steps and runs -/

/-- A property of the block's registers and parser that holds right after reset and that every command keeps. -/
structure KeptByCommands (P : State → Prop) : Prop where
  /-- It does not depend on the port or the draws. -/
  block : ∀ {s t : State}, t.reg = s.reg → t.rx = s.rx → P s → P t
  /-- It holds right after reset. -/
  reset : P State.reset
  /-- Every command keeps it. -/
  exec : ∀ {i : Instr} {s t : State}, exec i s = .next t → P s → P t

/-- A packet keeps what every command keeps; an illegal one writes no state (R192). -/
theorem KeptByCommands.after_runPacket {P : State → Prop} (hP : KeptByCommands P) {p : Bytes} {s t : State}
    (h : runPacket p s = .next t) (hs : P s) : P t := by
  unfold runPacket at h
  split at h
  · exact hP.exec h hs
  · cases h
    exact hP.block (s := s) rfl rfl hs

theorem KeptByCommands.after_resetBlock {P : State → Prop} (hP : KeptByCommands P) (s : State) : P s.resetBlock :=
  hP.block (s := State.reset) rfl rfl hP.reset

/-- A step keeps what every command keeps (R58, R240, R241). -/
theorem KeptByCommands.after_step {P : State → Prop} (hP : KeptByCommands P) {s t : State} (h : step s = .next t)
    (hs : P s) : P t := by
  rcases step_cases s with ⟨-, hstep⟩ | ⟨p, rest, -, hstep⟩ | ⟨rest, -, hstep⟩ | ⟨p, rest, u, -, -, -, hstep⟩ |
    ⟨p, rest, -, -, hstep⟩
  · cases h.symm.trans hstep
    exact hs
  · exact hP.after_runPacket (hstep.symm.trans h) (hP.block (s := s) rfl rfl hs)
  · cases h.symm.trans hstep
    exact hP.after_resetBlock _
  · cases h.symm.trans hstep
    exact hP.after_resetBlock _
  · cases h.symm.trans hstep
    exact hP.after_resetBlock _

/-- Every step completes (R225). -/
theorem step_completes (s : State) : ∃ t, step s = .next t := by
  rcases step_cases s with ⟨-, h⟩ | ⟨p, rest, -, h⟩ | ⟨rest, -, h⟩ | ⟨p, rest, u, -, -, -, h⟩ | ⟨p, rest, -, -, h⟩
  · exact ⟨_, h⟩
  · obtain ⟨t, st, d, ht, -⟩ := runPacket_answers p (s.setRequests rest)
    exact ⟨t, h.trans ht⟩
  · exact ⟨_, h⟩
  · exact ⟨_, h⟩
  · exact ⟨_, h⟩

theorem run_succ_of_step {s u : State} (h : step s = .next u) (n : Nat) :
    Host.Core.run Sys2Proof.core (n + 1) s = Host.Core.run Sys2Proof.core n u := by
  have hcore : Sys2Proof.core.step s = .next u := h
  simp only [Host.Core.run, hcore]

/-- A run keeps what every command keeps. -/
theorem KeptByCommands.after_run {P : State → Prop} (hP : KeptByCommands P) {n : Nat} {s t : State}
    (h : Host.Core.run Sys2Proof.core n s = .next t) (hs : P s) : P t := by
  induction n generalizing s with
  | zero =>
    cases h
    exact hs
  | succ n ih =>
    obtain ⟨u, hu⟩ := step_completes s
    rw [run_succ_of_step hu] at h
    exact ih h (hP.after_step hu hs)

/-! ## The invariant -/

/-- The state right after reset meets the invariant of R38. -/
theorem reset_inv : State.reset.Inv where
  parser := Rx.cleared_consistent (st := .header) (by decide) 0x00
  maxPayload := BitVec.le_refl _
  lastErr := by decide

theorem inv_keptByCommands : KeptByCommands State.Inv where
  block := fun hreg hrx hs => ⟨hrx ▸ hs.parser, hreg ▸ hs.maxPayload, hrx ▸ hs.lastErr⟩
  reset := reset_inv
  exec := exec_keeps_inv

/-- The invariant of R38, and the frame in progress within the capacity. -/
def State.Bounded (s : State) : Prop := s.Inv ∧ s.rx.WithinCapacity

theorem reset_bounded : State.reset.Bounded := ⟨reset_inv, Rx.withinCapacity_of_ne_payload (by decide)⟩

theorem bounded_keptByCommands : KeptByCommands State.Bounded where
  block := fun hreg hrx ⟨hinv, hcap⟩ => ⟨inv_keptByCommands.block hreg hrx hinv, hrx ▸ hcap⟩
  reset := reset_bounded
  exec := fun h ⟨hinv, hcap⟩ => ⟨exec_keeps_inv h hinv, exec_keeps_withinCapacity h hinv.maxPayload hcap⟩

/-! ## The statements -/

/-- Settles O54. -/
theorem stepKeepsTheParserInvariant : Obligations.StepKeepsTheParserInvariant :=
  fun _ _ hs h => inv_keptByCommands.after_step h hs

/-- Settles O56: the invariant makes the capacity of the frame in progress a bound on the buffer. -/
theorem payloadBufferNeverOverflows : Obligations.PayloadBufferNeverOverflows := by
  intro s t hs hcap h
  obtain ⟨hinv', hcap'⟩ := bounded_keptByCommands.after_step h ⟨hs, hcap⟩
  exact ⟨hcap', hinv'.parser.buf_length_le hcap'⟩

/-- Settles O55. -/
theorem reachableStatesMeetTheInvariant : Obligations.ReachableStatesMeetTheInvariant :=
  fun _ _ _ h => inv_keptByCommands.after_run h (inv_keptByCommands.block (s := State.reset) rfl rfl reset_inv)

/-- Settles O53. -/
theorem resetMeetsTheInvariant : Obligations.ResetMeetsTheInvariant := reset_bounded

/-- Settles O48: both registers are views, and a consistent parser has bytes to come only in PAYLOAD. -/
theorem capAndRemainAreReadOnlyViews : Obligations.CapAndRemainAreReadOnlyViews := by
  intro s v
  refine ⟨exec_cfgRead_number .maxPayloadCap s, exec_cfgWrite_readOnly (n := .maxPayloadCap) rfl,
    exec_cfgRead_number .rxRemain s, exec_cfgWrite_readOnly (n := .rxRemain) rfl, fun hinv hremain => ?_⟩
  by_contra hs
  exact hremain (hinv.parser.remain_eq_zero hs)

/-- Settles O39: RX_BYTE by its transition table, every other command because it keeps the parser or its record. -/
theorem lastErrIsSticky : Obligations.LastErrIsSticky := by
  refine ⟨fun b s => ?_, fun s => ⟨_, rfl, rfl⟩, fun i s hstart hbyte => ?_, fun s p rest hreq hillegal => ?_,
    fun s rest hreq => ?_, rfl⟩
  · obtain ⟨st, d, rx, hmove, hexec⟩ := execRxByte_move b s
    refine ⟨_, st.code, d, hexec, rfl, ?_⟩
    simp only [code_mem_errorCodes_iff]
    exact hmove.lastErr
  · by_cases hi : familyOf i = .rx
    · rcases familyOf_eq_rx.mp hi with rfl | ⟨b, rfl⟩ | rfl
      · exact absurd rfl hstart
      · exact absurd rfl (hbyte b)
      · exact ⟨_, rfl, rfl⟩
    · obtain ⟨t, ht, hrx⟩ := exec_keeps_rx hi s
      exact ⟨t, ht, congrArg Rx.lastErr hrx⟩
  · have hstep : step s = runPacket p (s.setRequests rest) := by simp only [step, takeRequest, hreq]
    cases hdec : decode p with
    | command i => exact absurd hdec (hillegal i)
    | illegal why =>
      exact ⟨raise .illegalCommand (s.setRequests rest), by simp only [hstep, runPacket, hdec], rfl⟩
  · exact ⟨(s.setRequests rest).resetBlock, by simp only [step, takeRequest, hreq], rfl⟩

end Sys2Proof.Machine

/-! PROOF. The packets of the commands decode to the commands (R80 to R82). -/

namespace Sys2Proof.Machine

open Sys2Proof Sys2Proof.Laws

/-- The packet of every well-formed command has the length its format requires (R80, R81). -/
theorem length_encode_eq_requiredLength (i : Instr) : PacketLength.Statement i := by
  cases i with
  | crcInit => exact PacketLength.crcInit
  | crcByte b => exact PacketLength.crcByte b
  | crcBlock m => exact PacketLength.crcBlock m
  | crcRead => exact PacketLength.crcRead
  | encodeFrame seq flags payload => exact PacketLength.encodeFrame seq flags payload
  | decodeFrame buf => exact PacketLength.decodeFrame buf
  | rxStart => exact PacketLength.rxStart
  | rxByte b => exact PacketLength.rxByte b
  | rxEos => exact PacketLength.rxEos
  | cfgRead r => exact PacketLength.cfgRead r
  | cfgWrite r v => exact PacketLength.cfgWrite r v

theorem encode_ne_nil (i : Instr) : encode i ≠ [] := by
  cases i <;> exact List.cons_ne_nil _ _

/-- An operand of `n` bytes that stands after `pre` in a packet reads as the number it encodes (R81). -/
theorem leAt_operand {pre : Bytes} {n v off : Nat} (hpre : pre.length = off) (hv : v < 256 ^ n) (post : Bytes) :
    leAt n (pre ++ (leBytes n v ++ post)) off = v := by
  rw [leAt_append_right n pre _ off hpre, List.take_left' (length_leBytes n v), leNat_leBytes_of_lt hv]

/-- ENCODE's row, its operands read at the offsets of format E (R81, R82). -/
theorem rowOf_encodeFrame (p : Bytes) :
    rowOf 0x10 p =
      some (.E, .encodeFrame (BitVec.ofNat 64 (leAt 8 p 1)) (BitVec.ofNat 16 (leAt 2 p 9)) (p.drop 19)) := rfl

/-- CFG_WRITE's row, its operands read at the offsets of format W (R81, R82). -/
theorem rowOf_cfgWrite (p : Bytes) :
    rowOf 0x41 p = some (.W, .cfgWrite (byteAt p 1) (BitVec.ofNat 64 (leAt 8 p 2))) := rfl

/-- The operands of an ENCODE packet read back (R81). -/
theorem encodeFrame_operands (seq : U64) (flags : U16) (payload : Bytes) :
    leAt 8 (encode (.encodeFrame seq flags payload)) 1 = seq.toNat ∧
      leAt 2 (encode (.encodeFrame seq flags payload)) 9 = flags.toNat ∧
      (encode (.encodeFrame seq flags payload)).drop 19 = payload := by
  have hseq := leAt_operand (pre := [0x10]) (n := 8) (off := 1) rfl seq.isLt
    (leBytes 2 flags.toNat ++ (leBytes 8 payload.length ++ payload))
  have hflags := leAt_operand (pre := 0x10 :: leBytes 8 seq.toNat) (n := 2) (off := 9) (by simp) flags.isLt
    (leBytes 8 payload.length ++ payload)
  have hdata : (0x10 :: (leBytes 8 seq.toNat ++ leBytes 2 flags.toNat ++ leBytes 8 payload.length) ++ payload).drop
      19 = payload := List.drop_left' (by simp)
  simp only [List.cons_append, List.nil_append, List.append_assoc] at hseq hflags hdata
  simp only [encode, List.append_assoc]
  exact ⟨hseq, hflags, hdata⟩

/-- The value operand of a CFG_WRITE packet reads back (R81). -/
theorem cfgWrite_operand (r : Byte) (v : U64) : leAt 8 (encode (.cfgWrite r v)) 2 = v.toNat := by
  have h := leAt_operand (pre := [0x41, r]) (n := 8) (off := 2) rfl v.isLt []
  rwa [List.append_nil] at h

/-- The row that the opcode of a command's packet selects is the command's own, its operands read back (R81, R82). -/
theorem rowOf_encode (i : Instr) :
    rowOf (byteAt (encode i) 0) (encode i) = some (PacketLength.format i, i) := by
  cases i with
  | crcInit | crcByte | crcRead | rxStart | rxByte | rxEos | cfgRead => rfl
  | crcBlock m | decodeFrame m =>
    have hdata : (leBytes 8 m.length ++ m).drop 8 = m := List.drop_left' (length_leBytes 8 _)
    simp [rowOf, encode, byteAt, PacketLength.format, hdata]
  | encodeFrame seq flags payload =>
    obtain ⟨hseq, hflags, hdata⟩ := encodeFrame_operands seq flags payload
    refine (rowOf_encodeFrame _).trans ?_
    rw [hseq, hflags, hdata, BitVec.ofNat_toNat, BitVec.ofNat_toNat, BitVec.setWidth_eq, BitVec.setWidth_eq]
    rfl
  | cfgWrite r v =>
    refine (rowOf_cfgWrite _).trans ?_
    rw [cfgWrite_operand, BitVec.ofNat_toNat, BitVec.setWidth_eq]
    rfl

/-- A packet whose opcode selects a row and whose length fits the row's format is that row's command (R80). -/
theorem decode_eq_command {p : Bytes} {fmt : Format} {i : Instr} (hne : p ≠ [])
    (hrow : rowOf (byteAt p 0) p = some (fmt, i)) (hlen : p.length = requiredLength fmt p) :
    decode p = .command i := by
  cases p with
  | nil => exact absurd rfl hne
  | cons op ops =>
    have hrow' : rowOf op (op :: ops) = some (fmt, i) := hrow
    simp only [decode, hrow', if_pos hlen]

/-- The packet of a well-formed command decodes to it (R80 to R82). -/
theorem decode_encode {i : Instr} (hwf : i.wf = true) : decode (encode i) = .command i :=
  decode_eq_command (encode_ne_nil i) (rowOf_encode i) (length_encode_eq_requiredLength i hwf)

end Sys2Proof.Machine

/-! PROOF. The command port: what taking the request at its head does (R58, R80, R240, R241), and that every packet is
answered (R84, R85, R210). -/

namespace Sys2Proof.Machine

open Sys2Proof

/-! ## Taking one request -/

theorem step_of_packet {s : State} {p : Bytes} {rest : List Request} (h : s.requests = .command p :: rest) :
    step s = runPacket p (s.setRequests rest) := by
  simp only [step, takeRequest, h]

theorem runPacket_of_decode {p : Bytes} {i : Instr} (h : decode p = .command i) (s : State) :
    runPacket p s = exec i s := by
  simp only [runPacket, h]

/-- Settles O5. -/
theorem stepRunsTheDecodedCommand : Obligations.StepRunsTheDecodedCommand := by
  intro s p rest i hreq hdec
  rw [step_of_packet hreq, runPacket_of_decode hdec]
  rfl

/-- Every step takes exactly the request at the head of the port, of whatever kind it is (R58, R225). -/
theorem step_takes_request {s : State} {r : Request} {rest : List Request} (h : s.requests = r :: rest) :
    ∃ t, step s = .next t ∧ t.requests = rest := by
  rcases step_cases s with ⟨hq, -⟩ | ⟨p, rest', hq, hstep⟩ | ⟨rest', hq, hstep⟩ | ⟨p, rest', u, hq, -, hu, hstep⟩ |
    ⟨p, rest', hq, -, hstep⟩
  · cases h.symm.trans hq
  · cases h.symm.trans hq
    obtain ⟨t, -, -, ht, -, hreq, -⟩ := runPacket_answers p (s.setRequests rest)
    exact ⟨t, hstep.trans ht, hreq⟩
  · cases h.symm.trans hq
    exact ⟨_, hstep, rfl⟩
  · cases h.symm.trans hq
    obtain ⟨t, -, -, ht, -, hreq, -⟩ := runPacket_answers p (s.setRequests rest).countDraw
    cases hu.symm.trans ht
    exact ⟨_, hstep, hreq⟩
  · cases h.symm.trans hq
    exact ⟨_, hstep, rfl⟩

/-- Settles O10, by induction on the requests: each step takes one. -/
theorem everyHostSequenceIsServed : Obligations.EveryHostSequenceIsServed := by
  intro s
  induction hq : s.requests generalizing s with
  | nil => exact ⟨s, rfl, hq⟩
  | cons r rest ih =>
    obtain ⟨u, hu, hrest⟩ := step_takes_request hq
    obtain ⟨t, ht, hdone⟩ := ih u hrest
    exact ⟨t, by rw [List.length_cons, run_succ_of_step hu, ht], hdone⟩

/-! ## Commands in order -/

/-- A command neither reads nor writes the requests that wait behind it (R217). -/
theorem exec_setRequests (i : Instr) (s : State) :
    ∃ t : State, ∀ q, exec i (s.setRequests q) = .next (t.setRequests q) := by
  obtain ⟨reg, rx, r, h⟩ := exec_block i s.reg s.rx
  exact ⟨⟨reg, rx, [], s.responses ++ [r], s.draws⟩, fun q => h q s.responses s.draws⟩

/-- Settles O11, by induction on the commands: each step executes the one whose packet is at the head of the port. -/
theorem commandsTakeEffectInOrder : Obligations.CommandsTakeEffectInOrder := by
  intro is
  induction is with
  | nil =>
    intro s _ hreq
    exact congrArg (fun q => Host.Outcome.next (s.setRequests q)) hreq
  | cons i is ih =>
    intro s hwf hreq
    obtain ⟨hi, his⟩ := List.forall_mem_cons.mp hwf
    obtain ⟨t, ht⟩ := exec_setRequests i s
    have hstep : step s = .next (t.setRequests (is.map fun i => .command (encode i))) := by
      rw [stepRunsTheDecodedCommand s _ _ i hreq (decode_encode hi)]
      exact ht _
    have hrest := ih (t.setRequests (is.map fun i => .command (encode i))) his rfl
    exact ((run_succ_of_step hstep _).trans hrest).trans (execAll_cons_of_next (ht []) is).symm

/-! ## One response to a packet -/

/-- The outcome answers a success status with data, or raises an error, which carries none (R85, R210); only the
registers and the parser can differ besides. -/
inductive AnswersOrRaises (s : State) : Result → Prop where
  /-- A status below 0x10. -/
  | answers (reg : Regs) (rx : Rx) {st : Status} (hst : st.code.toNat < 0x10) (d : Bytes) :
    AnswersOrRaises s (.next (respond st d ((s.setReg reg).setRx rx)))
  /-- An error. -/
  | raises (reg : Regs) (rx : Rx) (e : Status) : AnswersOrRaises s (.next (raise e ((s.setReg reg).setRx rx)))

theorem AnswersOrRaises.of_setRx {s : State} {rx : Rx} {o : Result} (h : AnswersOrRaises (s.setRx rx) o) :
    AnswersOrRaises s o := by
  cases h with
  | answers reg rx hst d => exact .answers reg rx hst d
  | raises reg rx e => exact .raises reg rx e

theorem finishFrame_answersOrRaises (s : State) : AnswersOrRaises s (.next (finishFrame s)) := by
  rcases finishFrame_cases s with ⟨-, h⟩ | ⟨-, h⟩ <;> rw [h]
  · exact .answers s.reg _ (by decide) _
  · exact .raises s.reg _ _

theorem execRxByte_answersOrRaises (b : Byte) (s : State) : AnswersOrRaises s (execRxByte b s) := by
  obtain ⟨t, ht, h⟩ := execRxByte_cases b s
  rw [ht]
  rcases h with ⟨-, rfl⟩ | ⟨-, rfl⟩ | ⟨-, -, rfl⟩ | ⟨-, -, rfl⟩ | ⟨-, -, rfl⟩ | ⟨-, -, e, -, rfl⟩ |
    ⟨-, -, -, -, rfl⟩ | ⟨-, -, -, -, rfl⟩
  · exact .raises s.reg s.rx _
  · exact .answers s.reg _ (by decide) _
  · exact .answers s.reg _ (by decide) _
  · exact (finishFrame_answersOrRaises _).of_setRx
  · exact .answers s.reg _ (by decide) _
  · exact .raises s.reg _ e
  · exact (finishFrame_answersOrRaises _).of_setRx
  · exact .answers s.reg _ (by decide) _

/-- Every command answers a success or raises an error (R85, R210). -/
theorem exec_answersOrRaises (i : Instr) (s : State) : AnswersOrRaises s (exec i s) := by
  cases i with
  | crcInit | crcByte | crcBlock | crcRead => exact .answers _ s.rx (by decide) _
  | encodeFrame seq flags payload =>
    simp only [exec, execEncode]
    split
    · exact .raises s.reg s.rx _
    · exact .answers s.reg s.rx (by decide) _
  | decodeFrame buf =>
    simp only [exec, execDecode]
    cases decodeError s.reg buf with
    | some e => exact .raises s.reg s.rx e
    | none => exact .answers s.reg s.rx (by decide) _
  | rxStart => exact .answers s.reg _ (by decide) _
  | rxByte b => exact execRxByte_answersOrRaises b s
  | rxEos => exact .raises s.reg _ _
  | cfgRead r =>
    rcases Reg.number_or_reserved r with ⟨n, rfl⟩ | h
    · rw [exec_cfgRead_number]
      exact .answers s.reg s.rx (by decide) _
    · rw [exec_cfgRead_reserved h]
      exact .raises s.reg s.rx _
  | cfgWrite r v =>
    rcases exec_cfgWrite_cases r v s with ⟨n, reg, -, -, h⟩ | h <;> rw [h]
    · exact .answers reg s.rx (by decide) _
    · exact .raises s.reg s.rx _

/-- The same of a packet: an illegal one raises ILLEGAL_COMMAND (R192). -/
theorem runPacket_answersOrRaises (p : Bytes) (s : State) : AnswersOrRaises s (runPacket p s) := by
  unfold runPacket
  split
  · exact exec_answersOrRaises _ s
  · exact .raises s.reg s.rx _

/-- The ten status codes (R85). -/
theorem code_mem_statusCodes (st : Status) :
    st.code.toNat ∈ [0x00, 0x01, 0x02, 0x03, 0x10, 0x11, 0x12, 0x13, 0x20, 0x30] := by
  cases st <;> decide

/-- Settles O9: the packet is run, and every command answers a success or raises an error. -/
theorem everyPacketGetsOneResponse : Obligations.EveryPacketGetsOneResponse := by
  intro s p rest hreq
  have h := runPacket_answersOrRaises p (s.setRequests rest)
  rw [← step_of_packet hreq] at h
  generalize step s = o at h
  cases h with
  | answers reg rx hst d =>
    exact ⟨_, _, d, rfl, rfl, rfl, rfl, code_mem_statusCodes _, fun herr => absurd hst (Nat.not_lt.mpr herr)⟩
  | raises reg rx e => exact ⟨_, _, [], rfl, rfl, rfl, rfl, code_mem_statusCodes e, fun _ => rfl⟩

end Sys2Proof.Machine

/-! PROOF. What DECODE reads of its buffer (R51, R142, R143). -/

namespace Sys2Proof.Machine

open Sys2Proof

theorem exec_decodeFrame_of_error {buf : Bytes} {s : State} {e : Status} (h : decodeError s.reg buf = some e) :
    exec (.decodeFrame buf) s = .next (raise e s) := by
  simp only [exec, execDecode, h]

/-! ## Errors found before the payload is read -/

/-- With a whole header, a failing header check decides DECODE, whatever follows the header (R142). -/
theorem decodeError_of_headerError {reg : Regs} {buf : Bytes} {e : Status} (hlen : 36 ≤ buf.length)
    (h : headerError reg buf = some e) : decodeError reg buf = some e := by
  simp only [decodeError, headerLength, if_neg (Nat.not_lt.mpr hlen), h]

/-- With a header that passes its checks, DECODE refuses a buffer that ends before the payload does (R141). -/
theorem decodeError_of_short {reg : Regs} {buf : Bytes} (hlen : 36 ≤ buf.length) (h : headerError reg buf = none)
    (hshort : buf.length < 36 + leAt 8 buf 16) : decodeError reg buf = some .payloadTooLarge := by
  simp only [decodeError, headerLength, if_neg (Nat.not_lt.mpr hlen), h, toNat_payloadSizeOf, if_pos hshort]

/-- The numeric form of the header checks (R141): one fails exactly when a field is out of bounds. -/
theorem headerError_ne_none_iff {reg : Regs} {f : Bytes} :
    headerError reg f ≠ none ↔
      leAt 4 f 0 ≠ reg.magic.toNat ∨ reg.version.toNat < leAt 2 f 4 ∨ reg.maxPayload.toNat < leAt 8 f 16 := by
  rw [Ne, headerError_eq_none, ← BitVec.toNat_inj, BitVec.lt_def, BitVec.lt_def, toNat_magicOf, toNat_versionOf,
    toNat_payloadSizeOf]
  tauto

/-! ## The whole frame -/

/-- Two buffers that agree on their first bytes agree on fewer. -/
theorem take_congr_of_le {m n : Nat} {a b : Bytes} (h : a.take n = b.take n) (hm : m ≤ n) : a.take m = b.take m := by
  rw [← Nat.min_eq_left hm, ← List.take_take, h, List.take_take]

/-- The CRC check reads the header's 36 bytes and the payload (R72). -/
theorem crcGood_congr {f g : Bytes} (h : f.take 36 = g.take 36) (payload : Bytes) :
    crcGood f payload = crcGood g payload := by
  have hcovered : f.take 32 = g.take 32 := take_congr_of_le h (by decide)
  simp only [crcGood, crcInput, slice_zero, hcovered, crcFieldOf, leAt_congr_take h (show 32 + 4 ≤ 36 by decide)]

/-- The payload is what follows the header in the frame's own bytes (R70). -/
theorem payloadOf_eq_drop_take (f : Bytes) : payloadOf f = (f.take (36 + leAt 8 f 16)).drop 36 := by
  rw [payloadOf, headerLength, toNat_payloadSizeOf, slice_eq, List.drop_take, Nat.add_sub_cancel_left]

/-- A buffer that holds the whole frame fails a header check or the CRC check, or none (R141). -/
theorem decodeError_of_whole {reg : Regs} {buf : Bytes} (hframe : 36 + leAt 8 buf 16 ≤ buf.length) :
    decodeError reg buf =
      (headerError reg buf).or (if crcGood buf (payloadOf buf) then none else some .crcMismatch) := by
  have hlen : ¬ buf.length < 36 := by omega
  simp only [decodeError, headerLength, if_neg hlen, toNat_payloadSizeOf, if_neg (Nat.not_lt.mpr hframe)]
  cases headerError reg buf <;> rfl

/-- DECODE of two buffers that hold the same whole frame is the same: nothing after it is read (R51, R143). -/
theorem exec_decodeFrame_congr {a b : Bytes} (ha : 36 + leAt 8 a 16 ≤ a.length) (hb : 36 + leAt 8 a 16 ≤ b.length)
    (hagree : a.take (36 + leAt 8 a 16) = b.take (36 + leAt 8 a 16)) (s : State) :
    exec (.decodeFrame a) s = exec (.decodeFrame b) s := by
  have hheader : a.take 36 = b.take 36 := take_congr_of_le hagree (Nat.le_add_right _ _)
  have hsize : leAt 8 b 16 = leAt 8 a 16 := leAt_congr_take hheader.symm (by decide)
  have hpayload : payloadOf a = payloadOf b := by
    rw [payloadOf_eq_drop_take, payloadOf_eq_drop_take, hsize, hagree]
  have herror : decodeError s.reg a = decodeError s.reg b := by
    rw [decodeError_of_whole ha, decodeError_of_whole (hsize.symm ▸ hb), headerError_congr hheader,
      crcGood_congr hheader, hpayload]
  simp only [exec, execDecode, herror, slice_zero, headerLength, toNat_payloadSizeOf, hsize, hagree]

/-! ## The statement -/

/-- Settles O30: the errors found before the payload is read depend on the header and on where the buffer
ends, and the CRC check and the response on the frame alone. -/
theorem decodeReadsNoByteOutsideTheFrame : Obligations.DecodeReadsNoByteOutsideTheFrame := by
  intro a b s t ha hb hheader ht
  have hsize : leAt 8 b 16 = leAt 8 a 16 := leAt_congr_take hheader.symm (by decide)
  have hchecks : headerError s.reg b = headerError s.reg a := headerError_congr hheader.symm
  have failing : ∀ {e : Status}, headerError s.reg a = some e → exec (.decodeFrame b) s = .next t := by
    intro e he
    rw [← ht, exec_decodeFrame_of_error (decodeError_of_headerError ha he),
      exec_decodeFrame_of_error (decodeError_of_headerError hb (hchecks.trans he))]
  refine ⟨fun hshortA hshortB => ?_, fun hframeA hframeB hagree => ?_, fun hfails => ?_⟩
  · cases he : headerError s.reg a with
    | some e => exact failing he
    | none =>
      rw [← ht, exec_decodeFrame_of_error (decodeError_of_short ha he hshortA),
        exec_decodeFrame_of_error (decodeError_of_short hb (hchecks.trans he) (hsize ▸ hshortB))]
  · exact (exec_decodeFrame_congr hframeA hframeB hagree s).symm.trans ht
  · obtain ⟨e, he⟩ := Option.ne_none_iff_exists'.mp (headerError_ne_none_iff.mpr hfails)
    exact failing he

end Sys2Proof.Machine

/-! PROOF. The decoder and the encoder are inverse to each other (R80 to R82, R88), and what the decoder takes is what
the formats allow. -/

namespace Sys2Proof.Machine

open Sys2Proof

/-! ## The operand bytes of a format -/

/-- The bytes after the opcode are as long as the format requires, its length field whole (R81). -/
def OperandsFit : Format → Bytes → Prop
  | .N, ops => ops.length = 0
  | .B, ops => ops.length = 1
  | .L, ops => 8 ≤ ops.length ∧ ops.length = 8 + leNat (ops.take 8)
  | .E, ops => 18 ≤ ops.length ∧ ops.length = 18 + leNat ((ops.drop 10).take 8)
  | .R, ops => ops.length = 1
  | .W, ops => ops.length = 9

/-- The decoder's test of a packet's length is the test of its operand bytes (R80). -/
theorem length_eq_requiredLength_iff (op : Byte) (ops : Bytes) (fmt : Format) :
    (op :: ops).length = requiredLength fmt (op :: ops) ↔ OperandsFit fmt ops := by
  cases fmt <;>
    simp only [requiredLength, fixedLength, dataLength, OperandsFit, leAt_eq, List.length_cons, List.drop_succ_cons,
      List.drop_zero] <;> omega

/-- A packet decodes to the command of its opcode's row, if its operand bytes fit the row's format (R80, R88). -/
theorem decode_cons_eq_command_iff {op : Byte} {ops : Bytes} {i : Instr} :
    decode (op :: ops) = .command i ↔ ∃ fmt, rowOf op (op :: ops) = some (fmt, i) ∧ OperandsFit fmt ops := by
  simp only [decode, ← length_eq_requiredLength_iff op ops]
  cases rowOf op (op :: ops) with
  | none => simp
  | some row =>
    obtain ⟨fmt, j⟩ := row
    by_cases hlen : ops.length + 1 = requiredLength fmt (op :: ops) <;> simp [hlen]

/-- The rows of the opcode map (R82), with the lengths R81 requires of their operands. -/
theorem packetFits_iff_row {op : Byte} {ops : Bytes} :
    PacketFits op ops ↔ ∃ fmt i, rowOf op (op :: ops) = some (fmt, i) ∧ OperandsFit fmt ops := by
  unfold rowOf
  split <;> simp_all [PacketFits, OperandsFit]

/-! ## Operands that are encoded again -/

/-- A number read from the first `n` bytes of a sequence encodes to those bytes (R10). -/
theorem leBytes_leNat_take {n : Nat} {bs : Bytes} (h : n ≤ bs.length) : leBytes n (leNat (bs.take n)) = bs.take n :=
  leBytes_leNat_of_length (List.length_take_of_le h)

/-- A field that stands in the packet whole encodes to its own bytes, read as a word of the field's width (R10, R81). -/
theorem leBytes_field {n off : Nat} {op : Byte} {ops : Bytes} (h : off + n ≤ ops.length) :
    leBytes n (BitVec.ofNat (8 * n) (leAt n (op :: ops) (off + 1))).toNat = (ops.drop off).take n := by
  have hlt : leAt n (op :: ops) (off + 1) < 2 ^ (8 * n) := by
    rw [pow_mul]
    exact leAt_lt n _ _
  rw [BitVec.toNat_ofNat, Nat.mod_eq_of_lt hlt, leAt_eq, List.drop_succ_cons]
  exact leBytes_leNat_take (by rw [List.length_drop]; omega)

/-- Operand bytes that fit format L are the length of the data and the data (R81). -/
theorem operands_formatL {ops : Bytes} (h : OperandsFit .L ops) :
    lengthFits (ops.drop 8) = true ∧ leBytes 8 (ops.drop 8).length ++ ops.drop 8 = ops := by
  obtain ⟨hfield, hlen⟩ := h
  have hdata : (ops.drop 8).length = leNat (ops.take 8) := by rw [List.length_drop]; omega
  have hlt : leNat (ops.take 8) < 2 ^ 64 := by
    have := leNat_lt (ops.take 8)
    rwa [List.length_take_of_le hfield] at this
  refine ⟨decide_eq_true (hdata ▸ hlt), ?_⟩
  rw [hdata, leBytes_leNat_take hfield, List.take_append_drop]

/-- Operand bytes that fit format E are the sequence number, the flags, the length of the payload and the payload
(R81). -/
theorem operands_formatE {op : Byte} {ops : Bytes} (h : OperandsFit .E ops) :
    lengthFits (ops.drop 18) = true ∧
      leBytes 8 (BitVec.ofNat 64 (leAt 8 (op :: ops) 1)).toNat
        ++ leBytes 2 (BitVec.ofNat 16 (leAt 2 (op :: ops) 9)).toNat
        ++ leBytes 8 (ops.drop 18).length ++ ops.drop 18 = ops := by
  obtain ⟨hfield, hlen⟩ := h
  have htail : OperandsFit .L (ops.drop 10) := by constructor <;> rw [List.length_drop] <;> omega
  obtain ⟨hwf, hops⟩ := operands_formatL htail
  rw [List.drop_drop] at hwf hops
  refine ⟨hwf, ?_⟩
  have hseq := leBytes_field (n := 8) (off := 0) (op := op) (ops := ops) (by omega)
  have hflags := leBytes_field (n := 2) (off := 8) (op := op) (ops := ops) (by omega)
  calc _ = ops.take 8 ++ (ops.drop 8).take 2 ++ ops.drop 10 := by
        rw [hseq, hflags, List.append_assoc _ (leBytes 8 _), hops, List.drop_zero]
    _ = ops := by rw [← List.take_add, List.take_append_drop]

/-- Operand bytes that fit format W are a register number and a value (R81). -/
theorem operands_formatW {op : Byte} {ops : Bytes} (h : OperandsFit .W ops) :
    byteAt (op :: ops) 1 :: leBytes 8 (BitVec.ofNat 64 (leAt 8 (op :: ops) 2)).toNat = ops := by
  have hlen : ops.length = 9 := h
  have hvalue := leBytes_field (n := 8) (off := 1) (op := op) (ops := ops) (by omega)
  match ops, hlen with
  | r :: v, hlen =>
    have hv : v.length = 8 := Nat.succ.inj hlen
    rw [hvalue, List.drop_succ_cons, List.drop_zero, List.take_of_length_le hv.le]
    rfl

/-- A command read from a packet that fits its row is well-formed, and its own packet is that packet (R81, R82). -/
theorem encode_of_row {op : Byte} {ops : Bytes} {fmt : Format} {i : Instr}
    (hrow : rowOf op (op :: ops) = some (fmt, i)) (hfit : OperandsFit fmt ops) :
    i.wf = true ∧ encode i = op :: ops := by
  have hpacket : ∀ {c : Byte} {bs : Bytes}, op.toNat = c.toNat → bs = ops → c :: bs = op :: ops := by
    rintro c bs hop rfl
    rw [BitVec.eq_of_toNat_eq hop]
  unfold rowOf at hrow
  split at hrow <;> cases hrow
  case h_1 hop | h_4 hop | h_7 hop | h_9 hop =>
    exact ⟨rfl, hpacket hop (List.length_eq_zero_iff.mp hfit).symm⟩
  case h_2 hop | h_8 hop | h_10 hop =>
    obtain ⟨b, rfl⟩ := List.length_eq_one_iff.mp hfit
    exact ⟨rfl, hpacket hop rfl⟩
  case h_3 hop | h_6 hop =>
    obtain ⟨hwf, hops⟩ := operands_formatL hfit
    exact ⟨hwf, hpacket hop hops⟩
  case h_5 hop =>
    obtain ⟨hwf, hops⟩ := operands_formatE hfit
    exact ⟨hwf, hpacket hop hops⟩
  case h_11 hop => exact ⟨rfl, hpacket hop (operands_formatW hfit)⟩

/-- Settles O2: the row that the decoder took, encoded again, gives back the packet. -/
theorem decodedPacketIsTheEncoding : Obligations.DecodedPacketIsTheEncoding := by
  intro p i hdec
  cases p with
  | nil => simp [decode] at hdec
  | cons op ops =>
    obtain ⟨fmt, hrow, hfit⟩ := decode_cons_eq_command_iff.mp hdec
    exact encode_of_row hrow hfit

/-- Settles O3: both sides say that the opcode has a row and that the operand bytes fit its format. -/
theorem commandsAreThePacketsThatFit : Obligations.CommandsAreThePacketsThatFit := by
  refine ⟨rfl, fun op ops => ?_⟩
  simp only [decode_cons_eq_command_iff, packetFits_iff_row]
  exact exists_comm

/-- Settles O1: the packet's opcode selects the command's own row, and its length is the one the format requires. -/
theorem decodeEncodeRoundTrip : Obligations.DecodeEncodeRoundTrip := fun _ hwf => decode_encode hwf

/-- Settles O4: each packet is the one its command encodes to, so the round trip reads it back. -/
theorem writtenOutPacketsDecode : Obligations.WrittenOutPacketsDecode :=
  ⟨decode_encode (i := .crcInit) rfl, decode_encode (i := .crcByte 0x31) rfl,
    decode_encode (i := .crcBlock [0x31, 0x32]) rfl, decode_encode (i := .crcRead) rfl,
    decode_encode (i := .encodeFrame 0x0102030405060708 0x5AA5 [0xDE]) rfl,
    decode_encode (i := .decodeFrame [0x46, 0x57]) rfl, decode_encode (i := .rxStart) rfl,
    decode_encode (i := .rxByte 0x46) rfl, decode_encode (i := .rxEos) rfl, decode_encode (i := .cfgRead 0x10) rfl,
    decode_encode (i := .cfgWrite 0x03 0x80000000641C1F5C) rfl⟩

end Sys2Proof.Machine

/-! PROOF. The bytes of a frame: what ENCODE writes is what DECODE reads (R120, R123, R140). -/

namespace Sys2Proof.Machine

open Sys2Proof

/-! ## Reading past a field -/

/-- A field that stands first reads as the number it encodes (R10). -/
theorem leAt_first {n v : Nat} (hv : v < 256 ^ n) (post : Bytes) : leAt n (leBytes n v ++ post) 0 = v :=
  leAt_operand (pre := []) rfl hv post

/-- A field is read at its place behind the fields before it (R10). -/
theorem leAt_behind {k off : Nat} (h : k ≤ off) (n v : Nat) (post : Bytes) :
    leAt n (leBytes k v ++ post) off = leAt n post (off - k) := by
  rw [leAt_eq, leAt_eq, List.drop_append, List.drop_of_length_le (by simpa using h), List.nil_append, length_leBytes]

/-! ## The header ENCODE writes -/

@[simp] theorem length_headerBytes (reg : Regs) (seq : U64) (flags : U16) (size : Nat) (crc : U32) :
    (headerBytes reg seq flags size crc).length = 36 := by
  simp [headerBytes]

/-- The header's first 32 bytes do not depend on its CRC field (R72). -/
theorem headerBytes_eq_take_append (reg : Regs) (seq : U64) (flags : U16) (size : Nat) (crc crc' : U32) :
    headerBytes reg seq flags size crc = (headerBytes reg seq flags size crc').take 32 ++ leBytes 4 crc.toNat := by
  rw [headerBytes, headerBytes, List.take_left' (by simp)]

/-- The fields of a frame are the ones its header was written from (R70, R71). -/
theorem readFrame_headerBytes (reg : Regs) (seq : U64) (flags : U16) (crc : U32) {payload : Bytes}
    (hlen : payload.length < 2 ^ 64) :
    readFrame (headerBytes reg seq flags payload.length crc ++ payload) =
      { magic := reg.magic, version := reg.version, flags := flags, sequence := seq,
        payloadSize := BitVec.ofNat 64 payload.length, reserved := 0, crc := crc, payload := payload } := by
  have hmagic := leAt_first (n := 4) reg.magic.isLt
  have hversion := leAt_first (n := 2) reg.version.isLt
  have hflags := leAt_first (n := 2) flags.isLt
  have hseq := leAt_first (n := 8) seq.isLt
  have hsize := leAt_first (n := 8) (v := payload.length) hlen
  have hreserved := leAt_first (n := 8) (v := 0) (by decide)
  have hcrc := leAt_first (n := 4) crc.isLt
  have hpayload : payloadOf (headerBytes reg seq flags payload.length crc ++ payload) = payload := by
    rw [payloadOf, headerLength, slice_eq, List.drop_left' (by simp), toNat_payloadSizeOf]
    simp [headerBytes, leAt_behind, hsize]
  simp only [readFrame, hpayload]
  simp [magicOf, versionOf, flagsOf, sequenceOf, payloadSizeOf, reservedOf, crcFieldOf, headerBytes, leAt_behind,
    hmagic, hversion, hflags, hseq, hsize, hreserved, hcrc]

/-! ## The frame ENCODE answers -/

/-- The CRC is written last, over the header with its own field zeroed and the payload (R120). -/
theorem buildFrame_eq (reg : Regs) (seq : U64) (flags : U16) (payload : Bytes) :
    buildFrame reg seq flags payload =
      headerBytes reg seq flags payload.length (crc32 (headerBytes reg seq flags payload.length 0 ++ payload))
        ++ payload := by
  simp only [buildFrame, slice_zero]
  rw [← headerBytes_eq_take_append]

@[simp] theorem length_buildFrame (reg : Regs) (seq : U64) (flags : U16) (payload : Bytes) :
    (buildFrame reg seq flags payload).length = 36 + payload.length := by
  rw [buildFrame_eq, List.length_append, length_headerBytes]

/-- The record of the frame: the configuration, the operands and the CRC (R71, R120). -/
theorem readFrame_buildFrame (reg : Regs) (seq : U64) (flags : U16) {payload : Bytes} (hlen : payload.length < 2 ^ 64) :
    readFrame (buildFrame reg seq flags payload) =
      { magic := reg.magic, version := reg.version, flags := flags, sequence := seq,
        payloadSize := BitVec.ofNat 64 payload.length, reserved := 0,
        crc := crc32 (headerBytes reg seq flags payload.length 0 ++ payload), payload := payload } := by
  rw [buildFrame_eq, readFrame_headerBytes reg seq flags _ hlen]

/-- The length field of the frame is the payload's length (R71). -/
theorem leAt_size_buildFrame (reg : Regs) (seq : U64) (flags : U16) {payload : Bytes} (hlen : payload.length < 2 ^ 64) :
    leAt 8 (buildFrame reg seq flags payload) 16 = payload.length := by
  have hsize : payloadSizeOf (buildFrame reg seq flags payload) = BitVec.ofNat 64 payload.length := by
    simpa only [readFrame] using congrArg Frame.payloadSize (readFrame_buildFrame reg seq flags hlen)
  rw [← toNat_payloadSizeOf, hsize, BitVec.toNat_ofNat, Nat.mod_eq_of_lt hlen]

/-- The recomputed CRC of ENCODE's frame is the stored one (R72, R120). -/
theorem crcGood_buildFrame (reg : Regs) (seq : U64) (flags : U16) {payload : Bytes} (hlen : payload.length < 2 ^ 64) :
    crcGood (buildFrame reg seq flags payload) payload = true := by
  have hcrc : crcFieldOf (buildFrame reg seq flags payload)
      = crc32 (headerBytes reg seq flags payload.length 0 ++ payload) := by
    simpa only [readFrame] using congrArg Frame.crc (readFrame_buildFrame reg seq flags hlen)
  have hinput : crcInput (buildFrame reg seq flags payload) payload
      = headerBytes reg seq flags payload.length 0 ++ payload := by
    rw [buildFrame_eq, crcInput, slice_zero, List.take_append_of_le_length (by simp)]
    exact congrArg (· ++ payload) (headerBytes_eq_take_append reg seq flags payload.length 0 _).symm
  rw [crcGood, hinput, hcrc, beq_self_eq_true]

/-- DECODE of ENCODE's frame finds what the header checks find: the frame is whole and its CRC good (R123, R245). -/
theorem decodeError_buildFrame (cfg reg : Regs) (seq : U64) (flags : U16) {payload : Bytes}
    (hlen : payload.length < 2 ^ 64) :
    decodeError cfg (buildFrame reg seq flags payload) = headerError cfg (buildFrame reg seq flags payload) := by
  have hpayload : payloadOf (buildFrame reg seq flags payload) = payload := by
    simpa only [readFrame] using congrArg Frame.payload (readFrame_buildFrame reg seq flags hlen)
  rw [decodeError_of_whole (by rw [leAt_size_buildFrame reg seq flags hlen, length_buildFrame]), hpayload,
    if_pos (crcGood_buildFrame reg seq flags hlen), Option.or_none]

/-- The header checks of ENCODE's frame compare the two configurations and the payload's length (R141, R245). -/
theorem headerError_buildFrame (cfg reg : Regs) (seq : U64) (flags : U16) {payload : Bytes}
    (hlen : payload.length < 2 ^ 64) :
    headerError cfg (buildFrame reg seq flags payload) =
      if reg.magic ≠ cfg.magic then some .invalidHeader
      else if cfg.version < reg.version then some .unsupportedVersion
      else if cfg.maxPayload.toNat < payload.length then some .payloadTooLarge
      else none := by
  have hread := readFrame_buildFrame reg seq flags hlen
  simp only [readFrame, Frame.mk.injEq] at hread
  obtain ⟨hmagic, hversion, -⟩ := hread
  simp only [headerError, hmagic, hversion, BitVec.lt_def (x := cfg.maxPayload), toNat_payloadSizeOf,
    leAt_size_buildFrame reg seq flags hlen]

/-- DECODE answers FRAME with the frame's own bytes (R143). -/
theorem exec_decodeFrame_of_ok {buf : Bytes} {s : State} (h : decodeError s.reg buf = none) :
    exec (.decodeFrame buf) s = .next (respond .frame (buf.take (36 + leAt 8 buf 16)) s) := by
  simp only [exec, execDecode, h, headerLength, slice_zero, toNat_payloadSizeOf]

theorem exec_encodeFrame_of_le {payload : Bytes} {s : State} (h : payload.length ≤ s.reg.maxPayload.toNat) (seq : U64)
    (flags : U16) :
    exec (.encodeFrame seq flags payload) s = .next (respond .ok (buildFrame s.reg seq flags payload) s) := by
  simp only [exec, execEncode, if_neg (Nat.not_lt.mpr h)]

/-- Settles O27: the frame is whole, its CRC is good and its header passes the checks of the configuration it was
written under. -/
theorem encodedFrameDecodesToItself : Obligations.EncodedFrameDecodesToItself := by
  intro seq flags payload s u hsize hmagic hversion hmax
  have hlen : payload.length < 2 ^ 64 := hsize.trans_lt s.reg.maxPayload.isLt
  have hok : decodeError u.reg (buildFrame s.reg seq flags payload) = none := by
    rw [decodeError_buildFrame u.reg s.reg seq flags hlen, headerError_buildFrame u.reg s.reg seq flags hlen, hmagic,
      hversion, hmax, if_neg (not_not.mpr rfl), if_neg (BitVec.lt_irrefl _), if_neg (Nat.not_lt.mpr hsize)]
  have hdec := exec_decodeFrame_of_ok hok
  rw [leAt_size_buildFrame s.reg seq flags hlen, List.take_of_length_le (by simp)] at hdec
  refine ⟨buildFrame s.reg seq flags payload, exec_encodeFrame_of_le hsize seq flags, hdec, ?_⟩
  rw [readFrame_buildFrame s.reg seq flags hlen]
  exact ⟨rfl, rfl, rfl, rfl, Nat.mod_eq_of_lt hlen, rfl, rfl⟩

end Sys2Proof.Machine

/-! PROOF. The statuses each command can answer (R85). -/

namespace Sys2Proof.Machine

open Sys2Proof

/-- DECODE's errors are the parser's (R141). -/
theorem decodeError_mem_parserErrors {reg : Regs} {buf : Bytes} {e : Status} (h : decodeError reg buf = some e) :
    e ∈ parserErrors := by
  unfold decodeError at h
  split at h
  · cases h
    decide
  · split at h
    next he =>
      cases h
      exact headerError_mem_parserErrors he
    · split at h
      · cases h
        decide
      · split at h <;> cases h
        decide

/-- The statuses an RX_BYTE can answer (R161 to R165, R170). -/
def rxByteStatuses : List Status := .needMore :: .headerOk :: .frame :: .closed :: parserErrors

theorem Rx.Move.mem_rxByteStatuses {reg : Regs} {b : Byte} {rx rx' : Rx} {st : Status} (h : Rx.Move reg b rx st rx') :
    st ∈ rxByteStatuses := by
  cases h with
  | drop hs he => simp [rxByteStatuses, he]
  | _ => decide

/-- The statuses a command can answer (R85). -/
def statusesOf : Instr → List Status
  | .crcInit | .crcByte _ | .crcBlock _ | .crcRead | .rxStart => [.ok]
  | .encodeFrame _ _ _ => [.ok, .payloadTooLarge]
  | .decodeFrame _ => .frame :: parserErrors
  | .rxByte _ => rxByteStatuses
  | .rxEos => [.closed]
  | .cfgRead _ | .cfgWrite _ _ => [.ok, .illegalCommand]

/-- Every command answers one of its statuses (R85, R225). -/
theorem exec_answers_status (i : Instr) (s : State) :
    ∃ st d u, exec i s = .next (respond st d u) ∧ u.responses = s.responses ∧ st ∈ statusesOf i := by
  cases i with
  | crcInit | crcByte | crcBlock | crcRead | rxStart | rxEos => exact ⟨_, _, _, rfl, rfl, List.mem_singleton_self _⟩
  | encodeFrame seq flags payload =>
    simp only [exec, execEncode]
    split
    · exact ⟨.payloadTooLarge, [], s, rfl, rfl, by simp [statusesOf]⟩
    · exact ⟨.ok, _, s, rfl, rfl, by simp [statusesOf]⟩
  | decodeFrame buf =>
    cases he : decodeError s.reg buf with
    | some e =>
      exact ⟨e, [], s, exec_decodeFrame_of_error he, rfl, List.mem_cons_of_mem _ (decodeError_mem_parserErrors he)⟩
    | none => exact ⟨_, _, s, exec_decodeFrame_of_ok he, rfl, List.mem_cons_self⟩
  | rxByte b =>
    obtain ⟨st, d, rx', hmove, hexec⟩ := execRxByte_move b s
    exact ⟨st, d, _, hexec, rfl, hmove.mem_rxByteStatuses⟩
  | cfgRead r =>
    rcases Reg.number_or_reserved r with ⟨n, rfl⟩ | hr
    · exact ⟨.ok, _, s, exec_cfgRead_number n s, rfl, by simp [statusesOf]⟩
    · exact ⟨.illegalCommand, [], s, exec_cfgRead_reserved hr s, rfl, by simp [statusesOf]⟩
  | cfgWrite r v =>
    rcases exec_cfgWrite_cases r v s with ⟨n, reg, -, -, h⟩ | h
    · exact ⟨.ok, [], _, h, rfl, by simp [statusesOf]⟩
    · exact ⟨.illegalCommand, [], s, h, rfl, by simp [statusesOf]⟩

/-- Only the CFG commands can answer ILLEGAL_COMMAND (R190, R191). -/
theorem familyOf_of_illegalCommand {i : Instr} (h : .illegalCommand ∈ statusesOf i) : familyOf i = .cfg := by
  cases i <;> simp [statusesOf, rxByteStatuses, parserErrors] at h <;> rfl

/-- Only DECODE and RX_BYTE can answer FRAME (R140, R163). -/
theorem eq_of_frame_mem_statusesOf {i : Instr} (h : .frame ∈ statusesOf i) :
    (∃ buf, i = .decodeFrame buf) ∨ ∃ b, i = .rxByte b := by
  cases i <;> simp [statusesOf] at h ⊢

/-- A code stands for one status (R85). -/
theorem Status.code_injective : Function.Injective Status.code := by
  intro a b
  cases a <;> cases b <;> decide

/-- A response appended is a FRAME response with bytes `f` only if its status is FRAME and its data `f` (R84). -/
theorem eq_of_respond_eq_frame {rs : List Bytes} {st : Status} {d f : Bytes}
    (h : rs ++ [st.code :: d] = rs ++ [0x03 :: f]) : st = .frame ∧ d = f := by
  obtain ⟨hcode, hdata⟩ := List.cons.inj (List.cons.inj (List.append_cancel_left h)).1
  exact ⟨Status.code_injective hcode, hdata⟩

end Sys2Proof.Machine

/-! PROOF. A FRAME response is a whole frame with a good CRC (R143, R163, R171). -/

namespace Sys2Proof.Machine

open Sys2Proof

/-- A frame that ends with its payload and whose CRC is good (R70, R72). -/
def GoodFrame (f : Bytes) : Prop :=
  f.length = 36 + leNat ((f.drop 16).take 8) ∧
    (crc32 (f.take 32 ++ [0, 0, 0, 0] ++ f.drop 36)).toNat = leNat ((f.drop 32).take 4)

/-- A whole header, the payload it announces and a good CRC make a good frame (R72). -/
theorem goodFrame_of_crcGood {hdr buf : Bytes} (hlen : hdr.length = 36) (hsize : buf.length = leAt 8 hdr 16)
    (hcrc : crcGood hdr buf = true) : GoodFrame (hdr ++ buf) := by
  have hcovered : (hdr ++ buf).take 32 = hdr.take 32 := List.take_append_of_le_length (by omega)
  constructor
  · rw [← leAt_eq, leAt_append_left 8 hdr buf 16 (by omega), List.length_append, hlen, hsize]
  · rw [← leAt_eq, leAt_append_left 4 hdr buf 32 (by omega), hcovered, List.drop_left' hlen, ← toNat_crcFieldOf]
    rw [crcGood, crcInput, slice_zero, beq_iff_eq] at hcrc
    exact congrArg BitVec.toNat hcrc

/-- The bytes DECODE answers are a good frame (R143). -/
theorem goodFrame_of_decodeError_eq_none {reg : Regs} {buf : Bytes} (h : decodeError reg buf = none) :
    GoodFrame (buf.take (36 + leAt 8 buf 16)) := by
  obtain ⟨hlen, -, hwhole, hcrc⟩ := decodeError_eq_none.mp h
  rw [toNat_payloadSizeOf] at hwhole
  have hheader : (buf.take 36).take 36 = buf.take 36 := by rw [List.take_take, Nat.min_self]
  have hsize : (payloadOf buf).length = leAt 8 (buf.take 36) 16 := by
    rw [leAt_congr_take hheader (by decide), payloadOf_eq_drop_take, List.length_drop, List.length_take_of_le hwhole,
      Nat.add_sub_cancel_left]
  have hsplit : buf.take 36 ++ payloadOf buf = buf.take (36 + leAt 8 buf 16) := by
    rw [List.take_add, payloadOf_eq_drop_take, List.drop_take, Nat.add_sub_cancel_left]
  rw [← hsplit]
  exact goodFrame_of_crcGood (List.length_take_of_le hlen) hsize (by rw [crcGood_congr hheader, hcrc])

/-- A FRAME response to DECODE is a good frame (R140, R143). -/
theorem goodFrame_of_decodeFrame {buf f : Bytes} {s t : State} (ht : exec (.decodeFrame buf) s = .next t)
    (hf : t.responses = s.responses ++ [0x03 :: f]) : GoodFrame f := by
  cases he : decodeError s.reg buf with
  | some e =>
    cases (exec_decodeFrame_of_error he).symm.trans ht
    obtain ⟨rfl, -⟩ := eq_of_respond_eq_frame hf
    exact absurd (decodeError_mem_parserErrors he) (by decide)
  | none =>
    cases (exec_decodeFrame_of_ok he).symm.trans ht
    obtain ⟨-, rfl⟩ := eq_of_respond_eq_frame hf
    exact goodFrame_of_decodeError_eq_none he

/-- The bytes the stream parser delivers are a good frame, if its header and payload are complete (R163). -/
theorem goodFrame_of_finishFrame {s : State} {f : Bytes} (hlen : s.rx.hdr.length = 36)
    (hsize : s.rx.buf.length = leAt 8 s.rx.hdr 16) (hf : (finishFrame s).responses = s.responses ++ [0x03 :: f]) :
    GoodFrame f := by
  rcases finishFrame_cases s with ⟨hcrc, hfin⟩ | ⟨-, hfin⟩ <;> rw [hfin] at hf
  · obtain ⟨-, rfl⟩ := eq_of_respond_eq_frame hf
    exact goodFrame_of_crcGood hlen hsize hcrc
  · obtain ⟨hst, -⟩ := eq_of_respond_eq_frame hf
    cases hst

/-- Under the invariant, RX_BYTE finishes a frame only when its header and payload are complete (R38, R163). -/
theorem goodFrame_of_rxByte {b : Byte} {s t : State} {f : Bytes} (hinv : s.rx.Consistent)
    (ht : execRxByte b s = .next t) (hf : t.responses = s.responses ++ [0x03 :: f]) : GoodFrame f := by
  have notFrame : ∀ {st : Status} {d : Bytes} {u : State}, t = respond st d u → u.responses = s.responses →
      st ≠ .frame → GoodFrame f := by
    rintro st d u rfl hu hst
    rw [respond_responses, hu] at hf
    exact absurd (eq_of_respond_eq_frame hf).1 hst
  obtain ⟨t', ht', h⟩ := execRxByte_cases b s
  cases ht.symm.trans ht'
  rcases h with ⟨-, h⟩ | ⟨-, h⟩ | ⟨-, -, h⟩ | ⟨hs, hlast, rfl⟩ | ⟨-, -, h⟩ | ⟨-, -, e, he, h⟩ |
    ⟨hs, hlen, -, hzero, rfl⟩ | ⟨-, -, -, -, h⟩
  · exact notFrame h rfl (by decide)
  · exact notFrame h rfl (by decide)
  · exact notFrame h rfl (by decide)
  · obtain ⟨hhdr, -, hsum, -⟩ := (Rx.consistent_payload hs).mp hinv
    rw [hlast] at hsum
    refine goodFrame_of_finishFrame ?_ ?_ hf
    · exact hhdr
    · exact List.length_append.trans hsum
  · exact notFrame h rfl (by decide)
  · refine notFrame h rfl ?_
    rintro rfl
    exact absurd (headerError_mem_parserErrors he) (by decide)
  · obtain ⟨hhdr, hbuf, -⟩ := (Rx.consistent_header hs).mp hinv
    refine goodFrame_of_finishFrame ?_ ?_ hf
    · rw [State.setRx_rx, List.length_append, List.length_singleton]
      omega
    · rw [State.setRx_rx, hbuf, ← toNat_payloadSizeOf, hzero]
      rfl
  · exact notFrame h rfl (by decide)

/-- Settles O41: only DECODE and RX_BYTE answer FRAME, and each with a good frame. -/
theorem everyFrameResponseIsAGoodFrame : Obligations.EveryFrameResponseIsAGoodFrame := by
  intro i s t f hinv ht hf
  have hframe : .frame ∈ statusesOf i := by
    obtain ⟨st, d, u, hexec, hresp, hst⟩ := exec_answers_status i s
    cases ht.symm.trans hexec
    rw [respond_responses, hresp] at hf
    obtain ⟨rfl, -⟩ := eq_of_respond_eq_frame hf
    exact hst
  rcases eq_of_frame_mem_statusesOf hframe with ⟨buf, rfl⟩ | ⟨b, rfl⟩
  · exact goodFrame_of_decodeFrame ht hf
  · exact goodFrame_of_rxByte hinv.parser ht hf

end Sys2Proof.Machine

/-! PROOF. The packets that are answered ILLEGAL_COMMAND (R83, R192), and the packet of a table word. -/

namespace Sys2Proof.Machine

open Sys2Proof

/-! ## The packet of a table word -/

theorem decode_packetOfWord {nbits w : Nat} {i : Instr} (h : decodeTableWord nbits w = some i) :
    decode (packetOfWord nbits w) = .command i := by
  unfold decodeTableWord at h
  split at h
  · cases h
    assumption
  · cases h

/-- Settles O6: the word's packet is the request that the step takes, and the others wait behind it as before. -/
theorem fetchWordRunsAsTheNextCommand : Obligations.FetchWordRunsAsTheNextCommand :=
  fun s nbits w i h => stepRunsTheDecodedCommand (s.withFetchWord nbits w) _ s.requests i rfl (decode_packetOfWord h)

/-! ## Commands that are not answered ILLEGAL_COMMAND -/

/-- The command names a register it may access (R83, R192): any of R22 to read, a read/write one to write. -/
def NamesAccessibleRegister : Instr → Prop
  | .cfgRead r => r.toNat ∈ [0x00, 0x01, 0x02, 0x03, 0x04, 0x10, 0x11]
  | .cfgWrite r _ => r.toNat ∈ [0x00, 0x01, 0x02, 0x03]
  | _ => True

/-- A packet outside the class of R192 is that of a command, with a register the command may access. -/
theorem decode_of_not_illegalPacket {p : Bytes} (h : ¬ IllegalPacket p) :
    ∃ i, decode p = .command i ∧ NamesAccessibleRegister i := by
  cases p with
  | nil => exact absurd trivial h
  | cons op ops =>
    simp only [IllegalPacket, not_or, not_not] at h
    obtain ⟨hfits, hread, hwrite⟩ := h
    obtain ⟨i, hdec⟩ := (commandsAreThePacketsThatFit.2 op ops).mpr hfits
    obtain ⟨-, henc⟩ := decodedPacketIsTheEncoding _ i hdec
    refine ⟨i, hdec, ?_⟩
    cases i with
    | cfgRead r =>
      cases henc
      exact not_not.mp fun hr => hread ⟨rfl, hr⟩
    | cfgWrite r v =>
      cases henc
      exact not_not.mp fun hr => hwrite ⟨rfl, hr⟩
    | _ => trivial

/-- A read/write register takes any value (R191). -/
theorem writeReg_isSome {r : Byte} (h : r.toNat ∈ [0x00, 0x01, 0x02, 0x03]) (reg : Regs) (v : U64) :
    ∃ n reg', r = n.number ∧ writeReg reg v n = some reg' := by
  simp only [List.mem_cons, List.not_mem_nil, or_false] at h
  rcases h with h | h | h | h
  · exact ⟨.magic, _, BitVec.eq_of_toNat_eq h, rfl⟩
  · exact ⟨.version, _, BitVec.eq_of_toNat_eq h, rfl⟩
  · exact ⟨.maxPayload, _, BitVec.eq_of_toNat_eq h, rfl⟩
  · exact ⟨.crcAcc, _, BitVec.eq_of_toNat_eq h, rfl⟩

/-- A command that names no inaccessible register answers a status other than ILLEGAL_COMMAND (R83). -/
theorem exec_answers_of_accessible {i : Instr} (h : NamesAccessibleRegister i) (s : State) :
    ∃ st d u, exec i s = .next (respond st d u) ∧ u.responses = s.responses ∧ st ≠ .illegalCommand := by
  obtain ⟨st, d, u, hexec, hresp, hst⟩ := exec_answers_status i s
  by_cases hcfg : familyOf i = .cfg
  · cases i with
    | cfgRead r =>
      rcases Reg.number_or_reserved r with ⟨n, rfl⟩ | hr
      · exact ⟨_, _, s, exec_cfgRead_number n s, rfl, by decide⟩
      · exact absurd h (Reg.ofNumber_eq_none_iff.mp hr)
    | cfgWrite r v =>
      obtain ⟨n, reg, rfl, hw⟩ := writeReg_isSome h s.reg v
      exact ⟨_, _, _, exec_cfgWrite_number hw, rfl, by decide⟩
    | _ => cases hcfg
  · exact ⟨st, d, u, hexec, hresp, fun he => hcfg (familyOf_of_illegalCommand (he ▸ hst))⟩

/-- Settles O8: the packet is a command's, and the command names no register that it may not access. -/
theorem onlyIllegalPacketsAreAnsweredIllegal : Obligations.OnlyIllegalPacketsAreAnsweredIllegal := by
  intro s p rest hreq hlegal
  obtain ⟨i, hdec, hreg⟩ := decode_of_not_illegalPacket hlegal
  obtain ⟨st, d, u, hexec, hresp, hst⟩ := exec_answers_of_accessible hreg { s with requests := rest }
  refine ⟨_, st.code, d, (stepRunsTheDecodedCommand s p rest i hreq hdec).trans hexec, ?_, ?_⟩
  · rw [respond_responses, hresp]
  · exact fun hcode => hst (Status.code_injective hcode)

end Sys2Proof.Machine

/-! PROOF. The CRC generator: the step's table form, its fixed point, and what tells two sequences apart (R100 to
R106). -/

namespace Sys2Proof.Machine

open Sys2Proof

/-! ## The bit steps -/

/-- The bit steps are the iterates of one bit step (R100). -/
theorem crcBits_eq_iterate (n : Nat) (a : U32) : crcBits n a = crcBit^[n] a := by
  induction n generalizing a with
  | zero => rfl
  | succ n ih => exact ih (crcBit a)

theorem crcBits_add (m n : Nat) (a : U32) : crcBits (m + n) a = crcBits m (crcBits n a) := by
  simp only [crcBits_eq_iterate, Function.iterate_add_apply]

theorem crcBit_of_even {a : U32} (h : a.getLsbD 0 = false) : crcBit a = a >>> 1 :=
  if_neg (ne_true_of_eq_false h)

theorem crcBit_of_odd {a : U32} (h : a.getLsbD 0 = true) : crcBit a = (a >>> 1) ^^^ crcPolynomial := if_pos h

/-- While the bits shifted out are 0, the bit steps only shift. -/
theorem crcBits_eq_shiftRight {n : Nat} {a : U32} (h : ∀ i < n, a.getLsbD i = false) : crcBits n a = a >>> n := by
  induction n generalizing a with
  | zero => simp [crcBits]
  | succ n ih =>
    have hshift : ∀ i < n, (a >>> 1).getLsbD i = false := fun i hi => by
      rw [BitVec.getLsbD_ushiftRight]
      exact h (1 + i) (by omega)
    rw [crcBits, crcBit_of_even (h 0 (Nat.zero_lt_succ n)), ih hshift, ← BitVec.shiftRight_add, Nat.add_comm]

/-- A word is its low byte and the bits above it. -/
theorem lowByte_xor_high (a : U32) : (a.setWidth 8).setWidth 32 ^^^ (a >>> 8) <<< 8 = a := by
  apply BitVec.eq_of_getLsbD_eq
  intro i hi
  by_cases hlow : i < 8
  · simp [hlow, hi]
  · simp [hlow, hi, show 8 + (i - 8) = i by omega]

/-- The step in its table form: the low byte selects the table entry, the other bytes move down (R100). -/
theorem crcStep_eq_table (acc : U32) (b : Byte) :
    crcStep acc b = crcStep 0 ((acc ^^^ b.setWidth 32).setWidth 8) ^^^ (acc >>> 8) := by
  have hbyte : b.setWidth 32 >>> 8 = 0#32 := by
    apply BitVec.eq_of_getLsbD_eq
    intro i hi
    simp
  have hhigh : crcBits 8 (((acc ^^^ b.setWidth 32) >>> 8) <<< 8) = acc >>> 8 := by
    rw [crcBits_eq_shiftRight fun i hi => by simp [hi], BitVec.ushiftRight_xor_distrib, hbyte, BitVec.xor_zero]
    apply BitVec.eq_of_getLsbD_eq
    intro i hi
    by_cases htop : 8 + i < 32
    · simp [htop]
    · simp [BitVec.getLsbD_of_ge acc (8 + i) (by omega)]
  calc crcStep acc b
      = crcBits 8 (((acc ^^^ b.setWidth 32).setWidth 8).setWidth 32 ^^^ ((acc ^^^ b.setWidth 32) >>> 8) <<< 8) := by
        rw [lowByte_xor_high, crcStep]
    _ = crcStep 0 ((acc ^^^ b.setWidth 32).setWidth 8) ^^^ (acc >>> 8) := by
        rw [crcBits_xor, hhigh]
        exact congrArg (fun a => crcBits 8 a ^^^ acc >>> 8) BitVec.zero_xor.symm

/-- Settles O15: the bit steps are iterates of one, and a word that ends in eight zeros is only shifted. -/
theorem crcStepEqualsItsTableForm : Obligations.CrcStepEqualsItsTableForm :=
  ⟨fun acc b => crcBits_eq_iterate 8 (acc ^^^ b.setWidth 32), by decide +kernel, crcStep_eq_table⟩

/-! ## The fixed point of the step -/

/-- A word known up to its shift by `k` is known up to its shift by twice as much. -/
theorem eq_xor_shift_double {a c : U32} {k : Nat} (h : a = c ^^^ a >>> k) :
    a = (c ^^^ c >>> k) ^^^ a >>> (k + k) := by
  have hk : a >>> k = c >>> k ^^^ a >>> (k + k) := by
    rw [BitVec.shiftRight_add, ← BitVec.ushiftRight_xor_distrib, ← h]
  rw [BitVec.xor_assoc, ← hk, ← h]

/-- One bit step leaves only 0 as it is: the one word that differs from its shift by the polynomial is even. -/
theorem eq_zero_of_crcBit_eq {a : U32} (h : crcBit a = a) : a = 0 := by
  cases hodd : a.getLsbD 0 with
  | false =>
    rw [crcBit_of_even hodd] at h
    have hnat := congrArg BitVec.toNat h
    rw [BitVec.toNat_ushiftRight, Nat.shiftRight_eq_div_pow] at hnat
    exact BitVec.eq_of_toNat_eq (show a.toNat = 0 by omega)
  | true =>
    rw [crcBit_of_odd hodd, BitVec.xor_comm] at h
    have hdet := eq_xor_shift_double (eq_xor_shift_double (eq_xor_shift_double (eq_xor_shift_double
      (eq_xor_shift_double h.symm))))
    have hshift : a >>> 32 = 0#32 := BitVec.ushiftRight_eq_zero (Nat.le_refl 32)
    rw [hshift] at hdet
    rw [hdet] at hodd
    exact absurd hodd (by decide)

/-- If `n` bit steps fix only 0, so do twice as many: the difference of a fixed word and its image is fixed too. -/
theorem eq_zero_of_crcBits_double {n : Nat} (hn : ∀ a, crcBits n a = a → a = 0) {a : U32}
    (h : crcBits (n + n) a = a) : a = 0 := by
  have hdiff : crcBits n (crcBits n a ^^^ a) = crcBits n a ^^^ a := by
    rw [crcBits_xor, ← crcBits_add, h, BitVec.xor_comm]
  exact hn a (BitVec.xor_eq_zero_iff.mp (hn _ hdiff))

/-- Settles O19: only 0 is fixed by one bit step, so by two, by four and by eight. -/
theorem zeroByteFixesOnlyTheZeroAccumulator : Obligations.ZeroByteFixesOnlyTheZeroAccumulator := by
  intro acc
  have hbits : crcStep acc 0x00 = crcBits 8 acc := congrArg (crcBits 8) (BitVec.xor_zero)
  rw [hbits]
  constructor
  · have h1 : ∀ a, crcBits 1 a = a → a = 0 := fun a => eq_zero_of_crcBit_eq
    have h2 : ∀ a, crcBits 2 a = a → a = 0 := fun a => eq_zero_of_crcBits_double h1
    have h4 : ∀ a, crcBits 4 a = a → a = 0 := fun a => eq_zero_of_crcBits_double h2
    exact eq_zero_of_crcBits_double h4
  · rintro rfl
    exact crcBits_zero 8

/-! ## Values and single commands -/

/-- Settles O16: the fold by definition, the values by evaluation. -/
theorem crcOfASequenceAndItsValues : Obligations.CrcOfASequenceAndItsValues :=
  ⟨fun _ => rfl, rfl, by decide, by decide, by decide, by decide +kernel, by decide +kernel⟩

/-- Settles O17. -/
theorem crcInitSetsTheAccumulator : Obligations.CrcInitSetsTheAccumulator := fun _ => rfl

/-- Settles O18. -/
theorem crcByteFoldsOneByte : Obligations.CrcByteFoldsOneByte := fun _ _ => rfl

/-- Settles O20. -/
theorem crcBlockFoldsItsBytes : Obligations.CrcBlockFoldsItsBytes := fun _ _ => rfl

/-- Settles O22. -/
theorem crcReadReturnsTheCrc : Obligations.CrcReadReturnsTheCrc := fun _ => rfl

/-! ## Sequences of CRC commands -/

theorem execAll_append_of_next {is : List Instr} {s t : State} (h : execAll is s = .next t) (js : List Instr) :
    execAll (is ++ js) s = execAll js t := by
  induction is generalizing s with
  | nil =>
    cases h
    rfl
  | cons i is ih =>
    obtain ⟨u, st, d, hu, -⟩ := exec_answers i s
    rw [execAll_cons_of_next hu] at h
    rw [List.cons_append, execAll_cons_of_next hu, ih h]

/-- The state with CRC_ACC `acc`, after `n` responses OK without data. -/
def State.afterCrc (acc : U32) (n : Nat) (s : State) : State :=
  { s.setCrcAcc acc with responses := s.responses ++ List.replicate n [0x00] }

/-- A CRC_BYTE or CRC_BLOCK folds the bytes it carries (R103, R104). -/
theorem exec_crcCommand (c : Byte ⊕ Bytes) (s : State) :
    exec (crcCommand c) s = .next (s.afterCrc (crcFold s.reg.crcAcc (crcChunk c)) 1) := by
  cases c <;> rfl

theorem State.afterCrc_afterCrc (a b : U32) (m n : Nat) (s : State) :
    (s.afterCrc a m).afterCrc b n = s.afterCrc b (m + n) := by
  simp [State.afterCrc, State.setCrcAcc, State.setReg, List.replicate_append_replicate]

/-- CRC_BYTE and CRC_BLOCK commands, in whatever order, fold all the bytes they carry (R103, R104). -/
theorem execAll_crcCommand (cs : List (Byte ⊕ Bytes)) (s : State) :
    execAll (cs.map crcCommand) s =
      .next (s.afterCrc (crcFold s.reg.crcAcc (cs.flatMap crcChunk)) cs.length) := by
  induction cs generalizing s with
  | nil => simp [execAll, State.afterCrc, State.setCrcAcc, State.setReg]
  | cons c cs ih =>
    rw [List.map_cons, execAll_cons_of_next (exec_crcCommand c s), ih, State.afterCrc_afterCrc, List.flatMap_cons,
      crcFold_append, List.length_cons, Nat.add_comm 1]
    rfl

/-- Settles O21: the CRC_BYTEs are chunks of one byte each. -/
theorem crcBlockEqualsItsCrcBytes : Obligations.CrcBlockEqualsItsCrcBytes := by
  intro m s
  have hbytes := execAll_crcCommand (m.map Sum.inl) s
  have hcommands : (m.map Sum.inl).map crcCommand = m.map Instr.crcByte := by rw [List.map_map]; rfl
  have hdata : (m.map Sum.inl).flatMap crcChunk = m := by
    rw [List.flatMap_map]
    exact List.flatMap_singleton' m
  rw [hcommands, hdata, List.length_map] at hbytes
  exact ⟨_, _, exec_crcCommand (.inr m) s, hbytes, rfl, rfl, rfl⟩

/-- Settles O23: the chunks' commands fold the concatenation, and CRC_READ answers what was folded. -/
theorem crcDoesNotDependOnTheSplit : Obligations.CrcDoesNotDependOnTheSplit := by
  intro cs s
  rw [execAll_cons_of_next (crcInitSetsTheAccumulator s), execAll_append_of_next (execAll_crcCommand cs _),
    execAll_cons_of_next (crcReadReturnsTheCrc _)]
  exact ⟨_, rfl, List.getLast?_concat⟩

/-! ## Two sequences that differ in one byte -/

/-- For one accumulator, different bytes give different accumulators. -/
theorem crcStep_byte_injective {a : U32} {x y : Byte} (h : crcStep a x = crcStep a y) : x = y := by
  have hdiff := crcStep_xor a a x y
  rw [h, BitVec.xor_self, BitVec.xor_self, BitVec.zero_xor] at hdiff
  have hzero := crcBits_eq_zero hdiff.symm
  have hbyte : (x ^^^ y) = 0#8 := by
    have := congrArg (BitVec.setWidth 8) hzero
    simpa using this
  exact BitVec.xor_eq_zero_iff.mp hbyte

/-- Replacing one byte keeps the accumulator only if it keeps the sequence (R106). -/
theorem eq_of_crcFold_set_eq {a : U32} {m : Bytes} {k : Nat} {x : Byte} (h : crcFold a (m.set k x) = crcFold a m) :
    m.set k x = m := by
  induction m generalizing a k with
  | nil => rfl
  | cons b m ih =>
    cases k with
    | zero => rw [List.set_cons_zero, crcStep_byte_injective (crcFold_injective h)]
    | succ k => rw [List.set_cons_succ, ih h]

theorem eq_of_crc32_set_eq {m : Bytes} {k : Nat} {x : Byte} (h : crc32 (m.set k x) = crc32 m) : m.set k x = m :=
  eq_of_crcFold_set_eq ((BitVec.xor_left_inj crcFinalXor).mp h)

theorem length_flipBit (m : Bytes) (k j : Nat) : (flipBit m k j).length = m.length := List.length_set

/-- Flipping a bit of a sequence changes the sequence. -/
theorem flipBit_ne {m : Bytes} {k j : Nat} (hk : k < m.length) (hj : j < 8) : flipBit m k j ≠ m := by
  intro h
  have hbyte : m.getD k 0 ^^^ BitVec.twoPow 8 j = m.getD k 0 := by
    have := congrArg (·.getD k 0) h
    simpa only [flipBit, List.getD_eq_getElem?_getD, List.getElem?_set_self hk, Option.getD_some] using this
  have hpow : BitVec.twoPow 8 j = 0#8 := by
    rwa [← BitVec.xor_right_inj (m.getD k 0), BitVec.xor_zero]
  have hnat := congrArg BitVec.toNat hpow
  rw [BitVec.toNat_twoPow_of_lt hj] at hnat
  exact absurd hnat (Nat.two_pow_pos j).ne'

/-- Settles O25: the fold keeps two sequences that differ in one byte apart. -/
theorem singleBitFlipChangesTheCrc : Obligations.SingleBitFlipChangesTheCrc :=
  fun _ _ _ hk hj h => flipBit_ne hk hj (eq_of_crc32_set_eq h)

end Sys2Proof.Machine

/-! PROOF. Which commands give the same response again and change nothing more (R60). -/

namespace Sys2Proof.Machine

open Sys2Proof

/-- The reading commands answer and write no state (R60). -/
theorem exec_readsOnly {i : Instr} (hi : readsOnly i = true) (s : State) :
    ∃ st d, exec i s = .next (respond st d s) := by
  cases i with
  | crcRead => exact ⟨_, _, rfl⟩
  | encodeFrame seq flags payload =>
    obtain ⟨st, d, h⟩ := exec_frame (i := .encodeFrame seq flags payload) rfl s.reg
    exact ⟨st, d, h s s.reg.sameConfig_refl⟩
  | decodeFrame buf =>
    obtain ⟨st, d, h⟩ := exec_frame (i := .decodeFrame buf) rfl s.reg
    exact ⟨st, d, h s s.reg.sameConfig_refl⟩
  | cfgRead r => exact exec_cfgRead_answers_only r s
  | _ => cases hi

/-- A command that only answered answers the same again: no command reads the responses (R84). -/
theorem exec_respond_of_unchanged {i : Instr} {s : State} {st : Status} {d : Bytes}
    (h : exec i s = .next (respond st d s)) :
    exec i (respond st d s) = .next (respond st d (respond st d s)) := by
  obtain ⟨reg, rx, r, hblock⟩ := exec_block i s.reg s.rx
  have hfirst := hblock s.requests s.responses s.draws
  have hsecond := hblock s.requests (s.responses ++ [st.packet d]) s.draws
  injection h.symm.trans hfirst with hstate
  injection hstate with hreg hrx _ hresp _
  have hr : st.packet d = r := (List.cons.inj (List.append_cancel_left hresp)).1
  rw [← hreg, ← hrx, ← hr] at hsecond
  exact hsecond

/-- A register written again with the value it was written with keeps what it holds (R191). -/
theorem writeReg_again {reg reg' : Regs} {v : U64} {n : Reg} (h : writeReg reg v n = some reg') :
    writeReg reg' v n = some reg' := by
  cases n <;> cases h <;> rfl

/-- A command that consumes no input, repeated, keeps the registers and the parser as it left them and gives the same
response (R60). -/
theorem exec_again {i : Instr} (hi : consumesInput i = false) (s : State) :
    ∃ st d u, exec i s = .next (respond st d u) ∧ u.responses = s.responses ∧
      exec i (respond st d u) = .next (respond st d (respond st d u)) := by
  by_cases hread : readsOnly i = true
  · obtain ⟨st, d, h⟩ := exec_readsOnly hread s
    exact ⟨st, d, s, h, rfl, exec_respond_of_unchanged h⟩
  · cases i with
    | crcInit | rxStart | rxEos => exact ⟨_, _, _, rfl, rfl, rfl⟩
    | cfgWrite r v =>
      rcases exec_cfgWrite_cases r v s with ⟨n, reg, rfl, hw, h⟩ | h
      · exact ⟨_, _, _, h, rfl,
          exec_cfgWrite_number (s := respond .ok [] (s.setReg reg)) (writeReg_again hw)⟩
      · exact ⟨_, _, s, h, rfl, exec_respond_of_unchanged h⟩
    | crcByte | crcBlock | rxByte => cases hi
    | crcRead | encodeFrame | decodeFrame | cfgRead => exact absurd rfl hread

/-- Settles O50: a reading command writes nothing, and the state after any other that consumes no input is one that it
leaves as it is. -/
theorem repeatedCommandsChangeNothingMore : Obligations.RepeatedCommandsChangeNothingMore := by
  refine ⟨fun i s hi => ?_, fun i s hi => ?_⟩
  · obtain ⟨st, d, h⟩ := exec_readsOnly hi s
    exact ⟨st.packet d, h, exec_respond_of_unchanged h⟩
  · obtain ⟨st, d, u, h, hresp, hagain⟩ := exec_again hi s
    exact ⟨_, st.packet d, h, congrArg (· ++ [st.packet d]) hresp, hagain⟩

end Sys2Proof.Machine

/-! PROOF. What DECODE answers to a frame of ENCODE with one byte changed (R106, R145). -/

namespace Sys2Proof.Machine

open Sys2Proof

/-! ## Fields and the bytes around them -/

/-- Two sequences of one length that agree before a field, in the field and behind it are equal. -/
theorem eq_of_leAt_eq {n off : Nat} {a b : Bytes} (hlen : a.length = b.length) (hbefore : a.take off = b.take off)
    (hfield : leAt n a off = leAt n b off) (hbehind : a.drop (off + n) = b.drop (off + n)) : a = b := by
  have hbytes : (a.drop off).take n = (b.drop off).take n := by
    rw [leAt_eq, leAt_eq] at hfield
    rw [← leBytes_leNat ((a.drop off).take n), ← leBytes_leNat ((b.drop off).take n), hfield]
    simp [hlen]
  rw [← List.take_append_drop off a, ← List.take_append_drop n (a.drop off), ← List.take_append_drop off b,
    ← List.take_append_drop n (b.drop off), List.drop_drop, List.drop_drop, hbefore, hbytes, hbehind]

/-- A field is read as before when a byte outside it is replaced. -/
theorem leAt_set_of_outside {n off k : Nat} (h : k < off ∨ off + n ≤ k) (f : Bytes) (x : Byte) :
    leAt n (f.set k x) off = leAt n f off := by
  rcases h with h | h
  · rw [leAt_eq, leAt_eq, List.drop_set_of_lt h]
  · exact leAt_congr_take (List.take_set_of_le h) (Nat.le_refl _)

/-- A field is read otherwise when a byte of it is changed. -/
theorem leAt_set_ne {n off k : Nat} {f : Bytes} {x : Byte} (hne : f.set k x ≠ f) (hlow : off ≤ k)
    (hhigh : k < off + n) : leAt n (f.set k x) off ≠ leAt n f off := fun h =>
  hne (eq_of_leAt_eq List.length_set (List.take_set_of_le hlow) h (List.drop_set_of_lt hhigh))

/-! ## The CRC of a frame with one byte changed -/

/-- What the CRC of a whole frame covers (R72). -/
def coveredBytes (f : Bytes) : Bytes := f.take 32 ++ [0, 0, 0, 0] ++ f.drop 36

/-- A byte outside the CRC field stands at its own place in what the CRC covers (R72). -/
theorem coveredBytes_set {f : Bytes} (hlen : 36 ≤ f.length) {k : Nat} (hk : k < 32 ∨ 36 ≤ k) (x : Byte) :
    coveredBytes (f.set k x) = (coveredBytes f).set k x := by
  have htake : (f.take 32).length = 32 := List.length_take_of_le (by omega)
  rcases hk with hk | hk
  · rw [coveredBytes, coveredBytes, List.take_set, List.drop_set_of_lt (by omega), List.append_assoc, List.append_assoc,
      List.set_append_left _ _ (by omega)]
  · rw [coveredBytes, coveredBytes, List.take_set_of_le (by omega), List.drop_set, if_neg (by omega),
      List.set_append_right _ _ (by simp; omega)]
    simp [htake]

/-- The CRC does not cover its own field (R72). -/
theorem coveredBytes_set_crcField {f : Bytes} {k : Nat} (hlow : 32 ≤ k) (hhigh : k < 36) (x : Byte) :
    coveredBytes (f.set k x) = coveredBytes f := by
  rw [coveredBytes, coveredBytes, List.take_set_of_le hlow, List.drop_set_of_lt hhigh]

/-- What the CRC covers and the CRC field make up the whole frame (R70, R72). -/
theorem eq_of_coveredBytes_eq {a b : Bytes} (hlen : a.length = b.length) (hcovered : coveredBytes a = coveredBytes b)
    (hcrc : leAt 4 a 32 = leAt 4 b 32) : a = b := by
  obtain ⟨hfront, hbehind⟩ := List.append_inj hcovered (by simp [hlen])
  exact eq_of_leAt_eq hlen (List.append_cancel_right hfront) hcrc hbehind

/-- A good frame with one byte replaced is good only if the byte is the one it had: the CRC tells the covered bytes
apart, and the stored CRC is the recomputed one (R106, R145). -/
theorem GoodFrame.eq_of_set {f : Bytes} {k : Nat} {x : Byte} (hf : GoodFrame f) (hg : GoodFrame (f.set k x)) :
    f.set k x = f := by
  obtain ⟨hlen, hfcrc⟩ := hf
  obtain ⟨-, hgcrc⟩ := hg
  rw [← leAt_eq] at hfcrc hgcrc
  by_cases hk : 32 ≤ k ∧ k < 36
  · obtain ⟨hlow, hhigh⟩ := hk
    have hcovered := coveredBytes_set_crcField (f := f) hlow hhigh x
    refine eq_of_coveredBytes_eq List.length_set hcovered ?_
    rw [← hfcrc, ← hgcrc]
    exact congrArg (fun m => (crc32 m).toNat) hcovered
  · have hfield : leAt 4 (f.set k x) 32 = leAt 4 f 32 := leAt_set_of_outside (by omega) f x
    have hset := coveredBytes_set (f := f) (by omega) (k := k) (by omega) x
    have hcrc : crc32 (coveredBytes (f.set k x)) = crc32 (coveredBytes f) :=
      BitVec.eq_of_toNat_eq (hgcrc.trans (hfield.trans hfcrc.symm))
    rw [hset] at hcrc
    exact eq_of_coveredBytes_eq List.length_set (hset.trans (eq_of_crc32_set_eq hcrc)) hfield

/-! ## DECODE by the numbers in the header -/

/-- The header checks on the numbers that the fields hold (R141). -/
theorem headerError_eq_ite (reg : Regs) (f : Bytes) :
    headerError reg f =
      if leAt 4 f 0 ≠ reg.magic.toNat then some .invalidHeader
      else if reg.version.toNat < leAt 2 f 4 then some .unsupportedVersion
      else if reg.maxPayload.toNat < leAt 8 f 16 then some .payloadTooLarge
      else none := by
  simp only [headerError, Ne, ← BitVec.toNat_inj, BitVec.lt_def, toNat_magicOf, toNat_versionOf, toNat_payloadSizeOf]

/-- DECODE's errors once the magic is right (R141). -/
theorem decodeError_of_magic {reg : Regs} {f : Bytes} (hlen : 36 ≤ f.length) (hmagic : leAt 4 f 0 = reg.magic.toNat) :
    decodeError reg f =
      if reg.version.toNat < leAt 2 f 4 then some .unsupportedVersion
      else if reg.maxPayload.toNat < leAt 8 f 16 ∨ f.length - 36 < leAt 8 f 16 then some .payloadTooLarge
      else if crcGood f (payloadOf f) then none else some .crcMismatch := by
  have hsize : f.length < 36 + leAt 8 f 16 ↔ f.length - 36 < leAt 8 f 16 := by omega
  simp only [decodeError, headerLength, if_neg (Nat.not_lt.mpr hlen), headerError_eq_ite, hmagic, ne_eq,
    not_true_eq_false, if_false, toNat_payloadSizeOf, hsize]
  by_cases hversion : reg.version.toNat < leAt 2 f 4
  · simp only [if_pos hversion]
  · by_cases hmax : reg.maxPayload.toNat < leAt 8 f 16 <;> simp [hversion, hmax]

/-- The response of DECODE (R140, R143). -/
def decodeResponse (reg : Regs) (buf : Bytes) : Bytes :=
  match decodeError reg buf with
  | some e => [e.code]
  | none => 0x03 :: buf.take (36 + leAt 8 buf 16)

theorem decodeResponse_of_error {reg : Regs} {buf : Bytes} {e : Status} (h : decodeError reg buf = some e) :
    decodeResponse reg buf = [e.code] := by
  simp only [decodeResponse, h]

theorem exec_decodeFrame (buf : Bytes) (s : State) :
    exec (.decodeFrame buf) s = .next { s with responses := s.responses ++ [decodeResponse s.reg buf] } := by
  cases h : decodeError s.reg buf with
  | some e => rw [decodeResponse_of_error h, exec_decodeFrame_of_error h]; rfl
  | none => rw [decodeResponse, h]; exact exec_decodeFrame_of_ok h

/-! ## Accepted frames -/

/-- A frame that passes every check of R141 and ends with its payload. -/
structure AcceptedFrame (reg : Regs) (f : Bytes) : Prop where
  /-- The magic is the configured one. -/
  magic : leAt 4 f 0 = reg.magic.toNat
  /-- The version is supported. -/
  version : leAt 2 f 4 ≤ reg.version.toNat
  /-- The size is within MAX_PAYLOAD. -/
  maxPayload : leAt 8 f 16 ≤ reg.maxPayload.toNat
  /-- The length and the CRC are right. -/
  good : GoodFrame f

theorem AcceptedFrame.length_eq {reg : Regs} {f : Bytes} (h : AcceptedFrame reg f) : f.length = 36 + leAt 8 f 16 := by
  rw [leAt_eq]
  exact h.good.1

/-- A response is the one packet that the outcome adds (R84). -/
theorem response_eq {o : Result} {s : State} {st : Status} {d r : Bytes} (h : o = .next (respond st d s))
    (hr : o = .next { s with responses := s.responses ++ [r] }) : st.code :: d = r := by
  injection h.symm.trans hr with hstate
  exact (List.cons.inj (List.append_cancel_left (congrArg State.responses hstate))).1

/-- ENCODE answers OK only with the frame of a payload within MAX_PAYLOAD (R120, R121). -/
theorem eq_buildFrame_of_encodeFrame {seq : U64} {flags : U16} {payload f : Bytes} {s : State}
    (h : exec (.encodeFrame seq flags payload) s = .next { s with responses := s.responses ++ [0x00 :: f] }) :
    payload.length ≤ s.reg.maxPayload.toNat ∧ f = buildFrame s.reg seq flags payload := by
  by_cases hsize : s.reg.maxPayload.toNat < payload.length
  · have herror : exec (.encodeFrame seq flags payload) s = .next (raise .payloadTooLarge s) := by
      simp only [exec, execEncode, if_pos hsize]
    exact absurd (List.cons.inj (response_eq herror h)).1 (by decide)
  · have hle := Nat.le_of_not_lt hsize
    exact ⟨hle, (List.cons.inj (response_eq (exec_encodeFrame_of_le hle seq flags) h)).2.symm⟩

/-- The frame of ENCODE is one that its own configuration accepts (R120, R123). -/
theorem acceptedFrame_buildFrame (reg : Regs) (seq : U64) (flags : U16) {payload : Bytes}
    (hsize : payload.length ≤ reg.maxPayload.toNat) : AcceptedFrame reg (buildFrame reg seq flags payload) := by
  have hlen : payload.length < 2 ^ 64 := hsize.trans_lt reg.maxPayload.isLt
  have hheader : headerError reg (buildFrame reg seq flags payload) = none := by
    rw [headerError_buildFrame reg reg seq flags hlen, if_neg (not_not.mpr rfl), if_neg (BitVec.lt_irrefl _),
      if_neg (Nat.not_lt.mpr hsize)]
  have hfields := mt headerError_ne_none_iff.mpr (not_not.mpr hheader)
  simp only [not_or, not_not, Nat.not_lt] at hfields
  obtain ⟨hmagic, hversion, hmax⟩ := hfields
  have hgood := goodFrame_of_decodeError_eq_none ((decodeError_buildFrame reg reg seq flags hlen).trans hheader)
  rw [leAt_size_buildFrame reg seq flags hlen, List.take_of_length_le (by simp)] at hgood
  exact ⟨hmagic, hversion, hmax, hgood⟩

/-! ## One byte of an accepted frame changed -/

section Changed

variable {reg : Regs} {f : Bytes} {k : Nat} {x : Byte}

/-- A changed byte of the magic is found first. -/
theorem AcceptedFrame.decodeError_set_magic (hf : AcceptedFrame reg f) (hne : f.set k x ≠ f) (hk : k < 4) :
    decodeError reg (f.set k x) = some .invalidHeader := by
  have hlen := hf.length_eq
  have hmagic := leAt_set_ne (n := 4) hne (Nat.zero_le k) (by omega)
  rw [hf.magic] at hmagic
  exact decodeError_of_headerError (by rw [List.length_set]; omega) (by rw [headerError_eq_ite, if_pos hmagic])

/-- With the magic and the size as they were, the changed frame fails the version check or the CRC check. -/
theorem AcceptedFrame.decodeError_set_of_size_kept (hf : AcceptedFrame reg f) (hne : f.set k x ≠ f)
    (hk : 4 ≤ k ∧ k < 16 ∨ 24 ≤ k) :
    decodeError reg (f.set k x) =
      if reg.version.toNat < leAt 2 (f.set k x) 4 then some .unsupportedVersion else some .crcMismatch := by
  have hlen := hf.length_eq
  have hmax := hf.maxPayload
  have hmagic : leAt 4 (f.set k x) 0 = leAt 4 f 0 := leAt_set_of_outside (by omega) f x
  have hsize : leAt 8 (f.set k x) 16 = leAt 8 f 16 := leAt_set_of_outside (by omega) f x
  have hrejected : decodeError reg (f.set k x) ≠ none := by
    intro hnone
    have hgood := goodFrame_of_decodeError_eq_none hnone
    rw [hsize, ← hlen, List.take_of_length_le (by simp)] at hgood
    exact hne (hf.good.eq_of_set hgood)
  rw [decodeError_of_magic (by rw [List.length_set]; omega) (hmagic.trans hf.magic), hsize, List.length_set,
    if_neg (c := _ ∨ _) (by omega)] at hrejected ⊢
  by_cases hversion : reg.version.toNat < leAt 2 (f.set k x) 4
  · rw [if_pos hversion, if_pos hversion]
  · rw [if_neg hversion] at hrejected ⊢
    rw [if_neg fun hcrc => hrejected (if_pos hcrc), if_neg hversion]

/-- With the magic, the version and the size as they were, only the CRC check can find the change. -/
theorem AcceptedFrame.decodeError_set_of_header_kept (hf : AcceptedFrame reg f) (hne : f.set k x ≠ f)
    (hk : 6 ≤ k ∧ k < 16 ∨ 24 ≤ k) : decodeError reg (f.set k x) = some .crcMismatch := by
  have hversion : leAt 2 (f.set k x) 4 = leAt 2 f 4 := leAt_set_of_outside (by omega) f x
  rw [hf.decodeError_set_of_size_kept hne (by omega), hversion, if_neg (Nat.not_lt.mpr hf.version)]

/-- A size above MAX_PAYLOAD or the buffer's payload is refused. -/
theorem AcceptedFrame.decodeError_set_of_size_above (hf : AcceptedFrame reg f) (hk : 16 ≤ k)
    (hsize : reg.maxPayload.toNat < leAt 8 (f.set k x) 16 ∨ f.length - 36 < leAt 8 (f.set k x) 16) :
    decodeError reg (f.set k x) = some .payloadTooLarge := by
  have hlen := hf.length_eq
  have hmagic : leAt 4 (f.set k x) 0 = leAt 4 f 0 := leAt_set_of_outside (by omega) f x
  have hversion : leAt 2 (f.set k x) 4 = leAt 2 f 4 := leAt_set_of_outside (by omega) f x
  rw [decodeError_of_magic (by rw [List.length_set]; omega) (hmagic.trans hf.magic), hversion,
    if_neg (Nat.not_lt.mpr hf.version), List.length_set, if_pos hsize]

/-- A size changed to one that the buffer holds is smaller. -/
theorem AcceptedFrame.size_set_lt (hf : AcceptedFrame reg f) (hne : f.set k x ≠ f) (hk : 16 ≤ k ∧ k < 24)
    (hsize : ¬ (reg.maxPayload.toNat < leAt 8 (f.set k x) 16 ∨ f.length - 36 < leAt 8 (f.set k x) 16)) :
    leAt 8 (f.set k x) 16 < leAt 8 f 16 := by
  have hlen := hf.length_eq
  have hchanged := leAt_set_ne (n := 8) hne hk.1 (by omega)
  omega

end Changed

/-- Settles O31: the first check that reads the flipped bit finds it, and the CRC check finds those that no other
reads. -/
theorem singleBitCorruptionIsClassified : Obligations.SingleBitCorruptionIsClassified := by
  intro seq flags payload f s k j henc hk hj
  obtain ⟨hsize, rfl⟩ := eq_buildFrame_of_encodeFrame henc
  have hf := acceptedFrame_buildFrame s.reg seq flags hsize
  have hne := flipBit_ne hk hj
  refine ⟨_, exec_decodeFrame _ s, fun hmagic => ?_, fun hlow hhigh => ?_, fun hlow hhigh => ?_, fun hlow hhigh => ?_,
    fun hlow => ?_⟩
  · exact decodeResponse_of_error (hf.decodeError_set_magic hne hmagic)
  · have herror := hf.decodeError_set_of_size_kept hne (.inl ⟨hlow, by omega⟩)
    rw [flipBit]
    split at herror
    next hversion => exact (decodeResponse_of_error herror).trans (if_pos hversion).symm
    next hversion => exact (decodeResponse_of_error herror).trans (if_neg hversion).symm
  · exact decodeResponse_of_error (hf.decodeError_set_of_header_kept hne (.inl ⟨hlow, hhigh⟩))
  · split
    next habove => exact decodeResponse_of_error (hf.decodeError_set_of_size_above hlow habove)
    next hwithin => exact hf.size_set_lt hne ⟨hlow, hhigh⟩ hwithin
  · exact decodeResponse_of_error (hf.decodeError_set_of_header_kept hne (.inr hlow))

end Sys2Proof.Machine

/-! PROOF. The formatter's answer (R120, R121), and a consumer of its frames under a configuration of its own (R245). -/

namespace Sys2Proof.Machine

open Sys2Proof

/-! ## ENCODE -/

theorem exec_encodeFrame_of_lt {payload : Bytes} {s : State} (h : s.reg.maxPayload.toNat < payload.length) (seq : U64)
    (flags : U16) : exec (.encodeFrame seq flags payload) s = .next (raise .payloadTooLarge s) := by
  simp only [exec, execEncode, if_pos h]

/-- Settles O26: the payload's length decides between the two outcomes. -/
theorem encodeFormatsTheFrame : Obligations.EncodeFormatsTheFrame := by
  intro seq flags payload s fields
  have hheader (crc : U32) : headerBytes s.reg seq flags payload.length crc = fields ++ leBytes 4 crc.toNat := rfl
  by_cases hsize : s.reg.maxPayload.toNat < payload.length
  · rw [exec_encodeFrame_of_lt hsize, if_pos hsize]
    rfl
  · rw [exec_encodeFrame_of_le (Nat.le_of_not_lt hsize), if_neg hsize, buildFrame_eq, hheader, hheader]
    rfl

/-! ## DECODE of an encoded frame -/

/-- DECODE accepts a frame of ENCODE whole, or answers the first disagreement of the two configurations (R245). -/
theorem decodeResponse_buildFrame (cfg reg : Regs) (seq : U64) (flags : U16) {payload : Bytes}
    (hlen : payload.length < 2 ^ 64) :
    decodeResponse cfg (buildFrame reg seq flags payload) =
      if cfg.magic ≠ reg.magic then [0x10]
      else if cfg.version < reg.version then [0x11]
      else if cfg.maxPayload.toNat < payload.length then [0x12]
      else 0x03 :: buildFrame reg seq flags payload := by
  have hwhole : (buildFrame reg seq flags payload).take (36 + payload.length) = buildFrame reg seq flags payload :=
    List.take_of_length_le (length_buildFrame reg seq flags payload).le
  rw [decodeResponse, decodeError_buildFrame cfg reg seq flags hlen, headerError_buildFrame cfg reg seq flags hlen,
    leAt_size_buildFrame reg seq flags hlen, hwhole]
  by_cases hmagic : cfg.magic = reg.magic
  · rw [if_neg (not_not.mpr hmagic.symm), if_neg (not_not.mpr hmagic)]
    split_ifs <;> rfl
  · rw [if_pos (Ne.symm hmagic), if_pos hmagic]
    rfl

/-- Settles O28: what ENCODE answered OK is the frame of its operands, on which DECODE compares the configurations. -/
theorem consumerAcceptsWhenTheConfigurationsAgree : Obligations.ConsumerAcceptsWhenTheConfigurationsAgree := by
  intro seq flags payload f s u henc
  obtain ⟨hsize, rfl⟩ := eq_buildFrame_of_encodeFrame henc
  rw [exec_decodeFrame, decodeResponse_buildFrame u.reg s.reg seq flags (hsize.trans_lt s.reg.maxPayload.isLt)]

end Sys2Proof.Machine

/-! PROOF. A good frame fed to the byte-serial parser from a frame boundary (R161 to R163, R169). -/

namespace Sys2Proof.Machine

open Sys2Proof

/-! ## What feeding bytes does to the parser -/

/-- Under the configuration `reg`, feeding `bs` takes the parser `rx` to `rx'` with the responses `rs`, and changes
nothing else. -/
def Rx.Feeds (reg : Regs) (rx : Rx) (bs : Bytes) (rx' : Rx) (rs : List Bytes) : Prop :=
  ∀ s : State, s.reg = reg → s.rx = rx →
    feed bs s = .next { s with rx := rx', responses := s.responses ++ rs }

section Feeds

variable {reg : Regs} {rx rx' rx'' : Rx} {b : Byte} {bs cs f : Bytes} {rs rs' : List Bytes}

theorem Rx.Feeds.nil : Rx.Feeds reg rx [] rx [] := by
  rintro s rfl rfl
  rw [List.append_nil]
  rfl

theorem Rx.Feeds.append (h : Rx.Feeds reg rx bs rx' rs) (h' : Rx.Feeds reg rx' cs rx'' rs') :
    Rx.Feeds reg rx (bs ++ cs) rx'' (rs ++ rs') := by
  intro s hreg hrx
  rw [feed, List.map_append, execAll_append_of_next (h s hreg hrx), ← List.append_assoc]
  exact h' _ hreg rfl

/-- Pieces that each bring the parser back are fed one after the other. -/
theorem Rx.Feeds.flatMap {α : Type} {f : α → Bytes} {g : α → List Bytes} {xs : List α}
    (h : ∀ x ∈ xs, Rx.Feeds reg rx (f x) rx (g x)) : Rx.Feeds reg rx (xs.flatMap f) rx (xs.flatMap g) := by
  induction xs with
  | nil => exact .nil
  | cons x xs ih => exact (h x List.mem_cons_self).append (ih fun y hy => h y (List.mem_cons_of_mem x hy))

/-! ## One byte, by the rows of the transition table that a good frame takes (R160) -/

/-- A byte is fed by one RX_BYTE (R87). -/
theorem Rx.Feeds.of_execRxByte {st : Status} {d : Bytes}
    (h : ∀ s : State, s.reg = reg → s.rx = rx → execRxByte b s = .next (respond st d (s.setRx rx'))) :
    Rx.Feeds reg rx [b] rx' [st.code :: d] :=
  fun s hreg hrx => execAll_cons_of_next (i := .rxByte b) (h s hreg hrx) []

/-- HEADER takes a byte before the 36th (R161). -/
theorem Rx.Feeds.collectHeader (hs : rx.state = .header) (hlen : rx.hdr.length < 35) :
    Rx.Feeds reg rx [b] { rx with hdr := rx.hdr ++ [b] } [[0x01]] := by
  refine .of_execRxByte (st := .needMore) (d := []) ?_
  rintro s rfl rfl
  have hmore : (s.rx.hdr ++ [b]).length < headerLength := by
    rw [List.length_append, List.length_singleton, headerLength]
    omega
  simp only [execRxByte, hs, headerByte, State.setRx_rx, if_pos hmore]

/-- HEADER checks the header at its 36th byte (R161). -/
theorem execRxByte_of_headerEnd {s : State} (hs : s.rx.state = .header) (hlen : s.rx.hdr.length = 35) :
    execRxByte b s = .next (validateHeader (s.setRx { s.rx with hdr := s.rx.hdr ++ [b] })) := by
  have hwhole : ¬ (s.rx.hdr ++ [b]).length < headerLength := by
    rw [List.length_append, List.length_singleton, headerLength]
    omega
  simp only [execRxByte, hs, headerByte, State.setRx_rx, if_neg hwhole]

/-- A header that passes its checks completes its frame or is answered with the payload's size (R161). -/
theorem validateHeader_of_ok {s : State} (hok : headerError s.reg s.rx.hdr = none) :
    validateHeader s =
      if payloadSizeOf s.rx.hdr = 0#64 then finishFrame s
      else
        respond .headerOk (leBytes 8 (payloadSizeOf s.rx.hdr).toNat)
          (s.setRx { s.rx with state := .payload, buf := [], remain := payloadSizeOf s.rx.hdr }) := by
  simp only [validateHeader, hok]

/-- The last byte of a good header with a payload is answered with the payload's size (R161). -/
theorem Rx.Feeds.accept {size : Nat} (hs : rx.state = .header) (hlen : rx.hdr.length = 35)
    (hok : headerError reg (rx.hdr ++ [b]) = none) (hsize : (payloadSizeOf (rx.hdr ++ [b])).toNat = size)
    (hpositive : size ≠ 0) :
    Rx.Feeds reg rx [b]
      { rx with state := .payload, hdr := rx.hdr ++ [b], buf := [], remain := payloadSizeOf (rx.hdr ++ [b]) }
      [0x02 :: leBytes 8 size] := by
  subst hsize
  refine .of_execRxByte (st := .headerOk) ?_
  rintro s rfl rfl
  rw [execRxByte_of_headerEnd hs hlen, validateHeader_of_ok hok, State.setRx_rx,
    if_neg (mt (congrArg BitVec.toNat) hpositive)]
  rfl

/-- PAYLOAD takes a byte before the last (R162). -/
theorem Rx.Feeds.collectPayload (hs : rx.state = .payload) (hmore : rx.remain ≠ 1#64) :
    Rx.Feeds reg rx [b] { rx with buf := rx.buf ++ [b], remain := rx.remain - 1#64 } [[0x01]] := by
  refine .of_execRxByte (st := .needMore) (d := []) ?_
  rintro s rfl rfl
  have hpositive : s.rx.remain - 1#64 ≠ 0#64 := by bv_omega
  simp only [execRxByte, hs, payloadByte, State.setRx_rx, if_neg hpositive]

/-- A complete frame with a good CRC is returned (R163). -/
theorem finishFrame_of_crcGood (h : crcGood rx.hdr rx.buf = true) (s : State) :
    finishFrame (s.setRx rx) = respond .frame (rx.hdr ++ rx.buf) (s.setRx (Rx.cleared .header rx.lastErr)) := by
  simp only [finishFrame, State.setRx_rx, h, if_true]
  rfl

/-- The last byte of a good header without a payload completes the frame (R161, R163). -/
theorem Rx.Feeds.deliver_header (hs : rx.state = .header) (hlen : rx.hdr.length = 35)
    (hok : headerError reg (rx.hdr ++ [b]) = none) (hsize : payloadSizeOf (rx.hdr ++ [b]) = 0#64)
    (hcrc : crcGood (rx.hdr ++ [b]) rx.buf = true) (hf : rx.hdr ++ [b] ++ rx.buf = f) :
    Rx.Feeds reg rx [b] (Rx.cleared .header rx.lastErr) [0x03 :: f] := by
  subst hf
  refine .of_execRxByte (st := .frame) ?_
  rintro s rfl rfl
  rw [execRxByte_of_headerEnd hs hlen, validateHeader_of_ok hok, State.setRx_rx, if_pos hsize,
    finishFrame_of_crcGood (rx := { s.rx with hdr := s.rx.hdr ++ [b] }) hcrc]

/-- PAYLOAD completes its frame at the last byte (R162). -/
theorem execRxByte_of_payloadEnd {s : State} (hs : s.rx.state = .payload) (hlast : s.rx.remain = 1#64) :
    execRxByte b s = .next (finishFrame (s.setRx { s.rx with buf := s.rx.buf ++ [b], remain := 0#64 })) := by
  have hzero : s.rx.remain - 1#64 = 0#64 := by rw [hlast, BitVec.sub_self]
  simp only [execRxByte, hs, payloadByte, State.setRx_rx, hzero, if_true]

/-- The last payload byte completes a good frame (R162, R163). -/
theorem Rx.Feeds.deliver_payload (hs : rx.state = .payload) (hlast : rx.remain = 1#64)
    (hcrc : crcGood rx.hdr (rx.buf ++ [b]) = true) (hf : rx.hdr ++ (rx.buf ++ [b]) = f) :
    Rx.Feeds reg rx [b] (Rx.cleared .header rx.lastErr) [0x03 :: f] := by
  subst hf
  refine .of_execRxByte (st := .frame) ?_
  rintro s rfl rfl
  rw [execRxByte_of_payloadEnd hs hlast,
    finishFrame_of_crcGood (rx := { s.rx with buf := s.rx.buf ++ [b], remain := 0#64 }) hcrc]

/-! ## The bytes between -/

/-- HEADER collects the bytes before the 36th and answers each NEED_MORE (R161). -/
theorem Rx.Feeds.collectHeader_all (hs : rx.state = .header) (hlen : rx.hdr.length + bs.length ≤ 35) :
    Rx.Feeds reg rx bs { rx with hdr := rx.hdr ++ bs } (List.replicate bs.length [0x01]) := by
  induction bs using List.reverseRecOn with
  | nil =>
    rw [List.append_nil]
    exact .nil
  | append_singleton bs b ih =>
    rw [List.length_append, List.length_singleton] at hlen ⊢
    rw [← List.append_assoc, List.replicate_succ']
    exact (ih (by omega)).append (.collectHeader hs (by rw [List.length_append]; omega))

/-- PAYLOAD collects the bytes before the last and answers each NEED_MORE (R162). -/
theorem Rx.Feeds.collectPayload_all (hs : rx.state = .payload) (hlen : bs.length < rx.remain.toNat) :
    Rx.Feeds reg rx bs { rx with buf := rx.buf ++ bs, remain := rx.remain - BitVec.ofNat 64 bs.length }
      (List.replicate bs.length [0x01]) := by
  induction bs using List.reverseRecOn with
  | nil =>
    rw [List.append_nil, List.length_nil, BitVec.sub_zero]
    exact .nil
  | append_singleton bs b ih =>
    rw [List.length_append, List.length_singleton] at hlen ⊢
    have hmore : rx.remain - BitVec.ofNat 64 bs.length ≠ 1#64 := by bv_omega
    have hcount : rx.remain - BitVec.ofNat 64 (bs.length + 1) = rx.remain - BitVec.ofNat 64 bs.length - 1#64 := by
      bv_omega
    rw [← List.append_assoc, List.replicate_succ', hcount]
    exact (ih (by omega)).append (.collectPayload hs hmore)

/-- A good payload is fed up to the end of its frame (R162, R163). -/
theorem Rx.Feeds.payload {payload : Bytes} (hs : rx.state = .payload) (hbuf : rx.buf = []) (hne : payload ≠ [])
    (hsize : rx.remain.toNat = payload.length) (hcrc : crcGood rx.hdr payload = true)
    (hf : rx.hdr ++ payload = f) :
    Rx.Feeds reg rx payload (Rx.cleared .header rx.lastErr)
      (List.replicate (payload.length - 1) [0x01] ++ [0x03 :: f]) := by
  obtain ⟨first, last, rfl⟩ := (List.eq_nil_or_concat' payload).resolve_left hne
  rw [List.length_append, List.length_singleton] at hsize ⊢
  have hlast : rx.remain - BitVec.ofNat 64 first.length = 1#64 := by bv_omega
  have hfirst := Rx.Feeds.collectPayload_all (reg := reg) (bs := first) hs (by omega)
  rw [hbuf, List.nil_append, hlast] at hfirst
  rw [Nat.add_sub_cancel]
  exact hfirst.append (.deliver_payload (rx := { rx with buf := first, remain := 1#64 }) hs rfl hcrc hf)

end Feeds

/-! ## One frame -/

/-- A parser at a frame boundary holds its last error alone (R166). -/
theorem Rx.AtBoundary.eq_cleared {rx : Rx} (h : rx.AtBoundary) : rx = Rx.cleared .header rx.lastErr := by
  obtain ⟨state, hdr, buf, remain, lastErr⟩ := rx
  obtain ⟨rfl, rfl, rfl, rfl⟩ := h
  rfl

section Frame

variable {reg : Regs} {e : Byte} {hdr payload f : Bytes}

/-- The first 35 bytes of a header are collected from a frame boundary (R161). -/
theorem Rx.Feeds.headerStart {first : Bytes} (hfirst : first.length = 35) :
    Rx.Feeds reg (Rx.cleared .header e) first { Rx.cleared .header e with hdr := first }
      (List.replicate 35 [0x01]) := by
  have hcollect := Rx.Feeds.collectHeader_all (reg := reg) (rx := Rx.cleared .header e) (bs := first) rfl
    (by rw [hfirst]; rfl)
  rwa [Rx.cleared_hdr, List.nil_append, hfirst] at hcollect

/-- A good frame fed from a frame boundary is returned at its own last byte, and the parser stands at a boundary again
(R161 to R163). -/
theorem Rx.Feeds.frame (hlen : hdr.length = 36) (hok : headerError reg hdr = none)
    (hsize : leAt 8 hdr 16 = payload.length) (hcrc : crcGood hdr payload = true) :
    Rx.Feeds reg (Rx.cleared .header e) (hdr ++ payload) (Rx.cleared .header e)
      (frameResponses (hdr ++ payload) payload.length) := by
  obtain ⟨first, last, rfl⟩ := (List.eq_nil_or_concat' hdr).resolve_left (List.ne_nil_of_length_eq_add_one hlen)
  have hfirst : first.length = 35 := Nat.succ.inj (List.length_append.symm.trans hlen)
  have hstart := Rx.Feeds.headerStart (reg := reg) (e := e) hfirst
  rw [← toNat_payloadSizeOf] at hsize
  by_cases hempty : payload = []
  · subst hempty
    have hzero : payloadSizeOf (first ++ [last]) = 0#64 := BitVec.eq_of_toNat_eq hsize
    have hend := Rx.Feeds.deliver_header (reg := reg) (rx := { Rx.cleared .header e with hdr := first }) rfl hfirst hok
      hzero hcrc (List.append_nil _)
    rw [frameResponses, if_pos List.length_nil, List.append_nil]
    exact hstart.append hend
  · have hpositive : payload.length ≠ 0 := mt List.length_eq_zero_iff.mp hempty
    have hend := Rx.Feeds.accept (reg := reg) (rx := { Rx.cleared .header e with hdr := first }) rfl hfirst hok
      hsize hpositive
    rw [frameResponses, if_neg hpositive, List.append_assoc first [last] payload]
    exact hstart.append (hend.append (.payload rfl rfl hempty hsize hcrc (List.append_assoc _ _ _)))

/-- What DECODE accepts whole, the byte-serial parser returns from a frame boundary (R169). -/
theorem Rx.Feeds.of_decodeError_eq_none (hok : decodeError reg f = none)
    (hlen : f.length = 36 + leAt 8 f 16) :
    Rx.Feeds reg (Rx.cleared .header e) f (Rx.cleared .header e) (frameResponses f (leAt 8 f 16)) := by
  obtain ⟨hheader, hchecks, -, hcrc⟩ := decodeError_eq_none.mp hok
  have htake : (f.take 36).take 36 = f.take 36 := by rw [List.take_take, Nat.min_self]
  have hpayload : payloadOf f = f.drop 36 := by
    rw [payloadOf_eq_drop_take, List.take_of_length_le hlen.le]
  have hsize : (f.drop 36).length = leAt 8 f 16 := by rw [List.length_drop, hlen, Nat.add_sub_cancel_left]
  have hframe := Rx.Feeds.frame (e := e) (payload := f.drop 36) (List.length_take_of_le hheader)
    ((headerError_congr htake).trans hchecks) ((leAt_congr_take htake (by decide)).trans hsize.symm)
    (by rw [crcGood_congr htake, ← hpayload, hcrc])
  rwa [List.take_append_drop, hsize] at hframe

end Frame

/-! ## A stream of frames -/

/-- A frame of ENCODE is returned under its own configuration (R120, R169). -/
theorem Rx.Feeds.encoded {reg : Regs} {e : Byte} (seq : U64) (flags : U16) {payload : Bytes}
    (hsize : payload.length ≤ reg.maxPayload.toNat) :
    Rx.Feeds reg (Rx.cleared .header e) (buildFrame reg seq flags payload) (Rx.cleared .header e)
      (frameResponses (buildFrame reg seq flags payload) payload.length) := by
  have hlen : payload.length < 2 ^ 64 := hsize.trans_lt reg.maxPayload.isLt
  have hfield := leAt_size_buildFrame reg seq flags hlen
  have hok : decodeError reg (buildFrame reg seq flags payload) = none := by
    rw [decodeError_buildFrame reg reg seq flags hlen, headerError_buildFrame reg reg seq flags hlen,
      if_neg (not_not.mpr rfl), if_neg (BitVec.lt_irrefl _), if_neg (Nat.not_lt.mpr hsize)]
  have hfeeds := Rx.Feeds.of_decodeError_eq_none (e := e) hok (by rw [hfield, length_buildFrame])
  rwa [hfield] at hfeeds

/-- Settles O42: each frame is returned from a boundary and leaves the parser at one, so that the next is too. -/
theorem streamOfFramesIsParsedFrameByFrame : Obligations.StreamOfFramesIsParsedFrameByFrame := by
  intro frames s hs henc
  refine Rx.Feeds.flatMap (reg := s.reg) (fun x hx => ?_) s rfl rfl
  obtain ⟨hsize, hframe⟩ := eq_buildFrame_of_encodeFrame (henc x hx)
  rw [hs.eq_cleared, hframe]
  exact .encoded _ _ hsize

end Sys2Proof.Machine

/-! PROOF. DECODE by the numbers in the buffer (R140 to R144). -/

namespace Sys2Proof.Machine

open Sys2Proof

/-- The CRC check of DECODE on the numbers: the CRC recomputed over the buffer's frame, its own field zeroed, is the
stored one (R72). -/
theorem crcGood_payloadOf_iff (buf : Bytes) :
    crcGood buf (payloadOf buf) = true ↔
      (crc32 (buf.take 32 ++ [0, 0, 0, 0] ++ (buf.drop 36).take (leAt 8 buf 16))).toNat = leAt 4 buf 32 := by
  rw [crcGood, beq_iff_eq, ← BitVec.toNat_inj, toNat_crcFieldOf, crcInput, slice_zero, payloadOf, headerLength,
    toNat_payloadSizeOf, slice_eq]
  rfl

/-- The six checks of DECODE, in the order of R141, on the numbers that the fields hold. -/
theorem decodeError_eq_ite (reg : Regs) (buf : Bytes) :
    decodeError reg buf =
      if buf.length < 36 then some .invalidHeader
      else if leAt 4 buf 0 ≠ reg.magic.toNat then some .invalidHeader
      else if reg.version.toNat < leAt 2 buf 4 then some .unsupportedVersion
      else if reg.maxPayload.toNat < leAt 8 buf 16 then some .payloadTooLarge
      else if buf.length < 36 + leAt 8 buf 16 then some .payloadTooLarge
      else if (crc32 (buf.take 32 ++ [0, 0, 0, 0] ++ (buf.drop 36).take (leAt 8 buf 16))).toNat ≠ leAt 4 buf 32 then
        some .crcMismatch
      else none := by
  simp only [decodeError, headerLength, headerError_eq_ite, toNat_payloadSizeOf, crcGood_payloadOf_iff, ne_eq, ite_not]
  split_ifs <;> rfl

/-- Settles O29: the response is decided by the checks one after the other. -/
theorem decodeReportsTheFirstFailingCheck : Obligations.DecodeReportsTheFirstFailingCheck := by
  intro buf s
  have hresponse := exec_decodeFrame buf s
  rw [decodeResponse, decodeError_eq_ite] at hresponse
  simp only [leAt_eq, List.drop_zero] at hresponse
  rw [hresponse]
  split_ifs <;> rfl

end Sys2Proof.Machine

/-! PROOF. The byte-serial parser answers the last byte of a sequence with the sequence exactly when DECODE accepts it
whole (R169): it captures at most the bytes it was fed, and all of them only while it has dropped and delivered
nothing. -/

namespace Sys2Proof.Machine

open Sys2Proof

/-! ## DECODE answers with the whole buffer -/

/-- DECODE answers FRAME with the whole buffer exactly when it finds no error and the buffer ends with its frame (R140,
R143). -/
theorem exec_decodeFrame_eq_frame_iff {f : Bytes} {s : State} :
    exec (.decodeFrame f) s = .next { s with responses := s.responses ++ [0x03 :: f] } ↔
      decodeError s.reg f = none ∧ f.length = 36 + leAt 8 f 16 := by
  constructor
  · intro h
    cases he : decodeError s.reg f with
    | some e =>
      obtain ⟨rfl, -⟩ := eq_of_respond_eq_frame
        (congrArg (s.responses ++ [·]) (response_eq (exec_decodeFrame_of_error he) h))
      exact absurd (decodeError_mem_parserErrors he) (by decide)
    | none =>
      have htake : f.take (36 + leAt 8 f 16) = f := (List.cons.inj (response_eq (exec_decodeFrame_of_ok he) h)).2
      obtain ⟨-, -, hwhole, -⟩ := decodeError_eq_none.mp he
      rw [toNat_payloadSizeOf] at hwhole
      exact ⟨rfl, Nat.le_antisymm (List.take_eq_self_iff f |>.mp htake) hwhole⟩
  · rintro ⟨hok, hlen⟩
    rw [exec_decodeFrame_of_ok hok, List.take_of_length_le hlen.le]
    rfl

/-- DECODE answers a good frame whose header passes its checks (R140). -/
theorem exec_decodeFrame_of_goodFrame {f : Bytes} {s : State} (hgood : GoodFrame f)
    (hok : headerError s.reg f = none) :
    exec (.decodeFrame f) s = .next { s with responses := s.responses ++ [0x03 :: f] } := by
  obtain ⟨hlen, hcrc⟩ := hgood
  rw [← leAt_eq] at hlen hcrc
  have hpayload : (f.drop 36).take (leAt 8 f 16) = f.drop 36 := List.take_of_length_le (by rw [List.length_drop]; omega)
  have hcrcGood : crcGood f (payloadOf f) = true := (crcGood_payloadOf_iff f).mpr (by rw [hpayload, hcrc])
  refine exec_decodeFrame_eq_frame_iff.mpr ⟨?_, hlen⟩
  rw [decodeError_of_whole hlen.ge, hok, if_pos hcrcGood]
  rfl

/-- The header checks read nothing behind a whole header. -/
theorem headerError_append {hdr : Bytes} (hlen : 36 ≤ hdr.length) (reg : Regs) (post : Bytes) :
    headerError reg (hdr ++ post) = headerError reg hdr :=
  headerError_congr (List.take_append_of_le_length hlen)

/-! ## When RX_BYTE answers FRAME -/

theorem eq_of_finishFrame_eq_frame {s : State} {f : Bytes}
    (h : (finishFrame s).responses = s.responses ++ [0x03 :: f]) : s.rx.hdr ++ s.rx.buf = f := by
  rcases finishFrame_cases s with ⟨-, hfin⟩ | ⟨-, hfin⟩ <;> rw [hfin] at h
  · exact (eq_of_respond_eq_frame h).2
  · exact absurd (eq_of_respond_eq_frame h).1 (by decide)

/-- RX_BYTE answers FRAME only with the bytes it has captured: in PAYLOAD, or at the end of a header that passes its
checks (R161 to R163). -/
theorem execRxByte_eq_frame {b : Byte} {s t : State} {f : Bytes} (ht : execRxByte b s = .next t)
    (hf : t.responses = s.responses ++ [0x03 :: f]) :
    (s.rx.state = .payload ∧ s.rx.hdr ++ (s.rx.buf ++ [b]) = f) ∨
    (35 ≤ s.rx.hdr.length ∧ headerError s.reg (s.rx.hdr ++ [b]) = none ∧ s.rx.hdr ++ [b] ++ s.rx.buf = f) := by
  obtain ⟨t', ht', h⟩ := execRxByte_cases b s
  cases ht.symm.trans ht'
  rcases h with ⟨-, rfl⟩ | ⟨-, rfl⟩ | ⟨-, -, rfl⟩ | ⟨hs, -, rfl⟩ | ⟨-, -, rfl⟩ | ⟨-, -, e, he, rfl⟩ |
    ⟨-, hlen, hok, -, rfl⟩ | ⟨-, -, -, -, rfl⟩
  · exact absurd (eq_of_respond_eq_frame hf).1 (by decide)
  · exact absurd (eq_of_respond_eq_frame hf).1 (by decide)
  · exact absurd (eq_of_respond_eq_frame hf).1 (by decide)
  · exact .inl ⟨hs, eq_of_finishFrame_eq_frame hf⟩
  · exact absurd (eq_of_respond_eq_frame hf).1 (by decide)
  · obtain ⟨rfl, -⟩ := eq_of_respond_eq_frame hf
    exact absurd (headerError_mem_parserErrors he) (by decide)
  · exact .inr ⟨hlen, hok, eq_of_finishFrame_eq_frame hf⟩
  · exact absurd (eq_of_respond_eq_frame hf).1 (by decide)

/-! ## What the parser has captured -/

/-- The parser holds all the bytes `bs`: in a header still to be checked, or in an accepted header and its payload. -/
structure Rx.HoldsAll (reg : Regs) (bs : Bytes) (rx : Rx) : Prop where
  /-- The bytes captured are `bs`. -/
  captured : rx.hdr ++ rx.buf = bs
  /-- The header is still to be checked, or it has passed its checks. -/
  checked : rx.state = .header ∨ rx.state = .payload ∧ headerError reg rx.hdr = none

/-- After the bytes `bs` the parser meets R38 and holds all of them, or it has captured fewer. -/
structure Rx.After (reg : Regs) (bs : Bytes) (rx : Rx) : Prop where
  /-- The parser's clauses of R38. -/
  consistent : rx.Consistent
  /-- All the bytes, or fewer. -/
  holds : rx.HoldsAll reg bs ∨ (rx.hdr ++ rx.buf).length < bs.length

section Move

variable {reg : Regs} {b : Byte} {bs : Bytes} {rx rx' : Rx} {st : Status}

/-- One byte adds at most itself to what the parser has captured. -/
theorem Rx.Move.length_captured_le (h : Rx.Move reg b rx st rx') :
    (rx'.hdr ++ rx'.buf).length ≤ (rx.hdr ++ rx.buf).length + 1 := by
  cases h with
  | discard => exact Nat.le_succ _
  | scan =>
    rcases resyncWindow_cases reg.magic b rx with ⟨-, -, h⟩ | ⟨-, -, h⟩ | ⟨-, h⟩ <;> rw [h] <;> simp <;> omega
  | collectHeader | accept | collectPayload => simp <;> omega
  | deliver | drop => exact Nat.zero_le _

/-- A parser that holds all the bytes takes the next one too, or drops or delivers them all. -/
theorem Rx.Move.holdsAll_or_cleared (hmove : Rx.Move reg b rx st rx') (hbuf : rx.state = .header → rx.buf = [])
    (h : rx.HoldsAll reg bs) : rx'.HoldsAll reg (bs ++ [b]) ∨ rx'.hdr ++ rx'.buf = [] := by
  obtain ⟨rfl, hchecked⟩ := h
  cases hmove with
  | discard hs | scan hs => simp [hs] at hchecked
  | collectHeader hs => exact .inl ⟨by simp [hbuf hs], .inl hs⟩
  | accept hs _ hok => exact .inl ⟨by simp [hbuf hs], .inr ⟨rfl, hok⟩⟩
  | collectPayload hs => exact .inl ⟨(List.append_assoc _ _ _).symm, hchecked⟩
  | deliver | drop => exact .inr rfl

/-- A byte adds itself to the bytes that are all held, or of which fewer are. -/
theorem Rx.Move.after_concat (hmove : Rx.Move reg b rx st rx') (h : rx.After reg bs) :
    rx'.After reg (bs ++ [b]) := by
  obtain ⟨hinv, hholds⟩ := h
  refine ⟨hmove.consistent hinv, ?_⟩
  rw [List.length_append (as := bs), List.length_singleton]
  rcases hholds with hall | hfewer
  · have hbuf : rx.state = .header → rx.buf = [] := fun hs => hinv.buf_eq_nil (by simp [hs])
    refine (hmove.holdsAll_or_cleared hbuf hall).imp_right fun hnil => ?_
    rw [hnil]
    exact Nat.succ_pos _
  · exact .inr (hmove.length_captured_le.trans_lt (Nat.succ_lt_succ hfewer))

end Move

/-- One byte more is fed by one RX_BYTE more (R87). -/
theorem feed_concat_of_next {bs : Bytes} {s u : State} (h : feed bs s = .next u) (b : Byte) :
    feed (bs ++ [b]) s = execRxByte b u := by
  obtain ⟨st, d, rx, -, hexec⟩ := execRxByte_move b u
  rw [feed, List.map_append, execAll_append_of_next h, hexec]
  exact execAll_cons_of_next (i := .rxByte b) hexec []

/-- From a frame boundary, the bytes fed are all held, or fewer are. -/
theorem feed_after (bs : Bytes) {s : State} (hs : s.rx.AtBoundary) :
    ∃ u, feed bs s = .next u ∧ u.reg = s.reg ∧ u.rx.After s.reg bs := by
  induction bs using List.reverseRecOn with
  | nil =>
    have hinv : s.rx.Consistent := hs.eq_cleared ▸ Rx.cleared_consistent (by decide) _
    obtain ⟨hstate, hhdr, hbuf, -⟩ := hs
    exact ⟨s, rfl, rfl, hinv, .inl ⟨by rw [hhdr, hbuf]; rfl, .inl hstate⟩⟩
  | append_singleton bs b ih =>
    obtain ⟨u, hfeed, hreg, hafter⟩ := ih
    obtain ⟨st, d, rx', hmove, hexec⟩ := execRxByte_move b u
    exact ⟨_, (feed_concat_of_next hfeed b).trans hexec, hreg, (hreg ▸ hmove).after_concat hafter⟩

/-- The last response to a sequence is the one to its last byte, after the bytes before it. -/
theorem feed_concat_last {bs : Bytes} {b : Byte} {s t : State} {rs : List Bytes} {r : Bytes} (hs : s.rx.AtBoundary)
    (ht : feed (bs ++ [b]) s = .next t) (hresp : t.responses = rs ++ [r]) :
    ∃ u : State, u.reg = s.reg ∧ u.rx.After s.reg bs ∧ execRxByte b u = .next t ∧
      t.responses = u.responses ++ [r] := by
  obtain ⟨u, hfeed, hreg, hafter⟩ := feed_after bs hs
  obtain ⟨st, d, rx', -, hexec⟩ := execRxByte_move b u
  rw [feed_concat_of_next hfeed] at ht
  cases ht.symm.trans hexec
  have hlast : u.responses = rs := List.append_inj_left' hresp rfl
  exact ⟨u, hreg, hafter, ht, hlast ▸ hresp⟩

/-! ## The two parsers agree -/

/-- With all the bytes fed in a FRAME response, their header has passed its checks: a parser that has captured fewer
answers fewer. -/
theorem headerError_of_rxByte {bs : Bytes} {b : Byte} {s t : State} (hafter : s.rx.After s.reg bs)
    (ht : execRxByte b s = .next t) (hf : t.responses = s.responses ++ [0x03 :: (bs ++ [b])]) :
    headerError s.reg (bs ++ [b]) = none := by
  obtain ⟨hinv, hholds⟩ := hafter
  rcases execRxByte_eq_frame ht hf with ⟨hs, hframe⟩ | ⟨hlen, hok, hframe⟩
  · have hcaptured : s.rx.hdr ++ s.rx.buf = bs := List.append_cancel_right ((List.append_assoc _ _ _).trans hframe)
    obtain ⟨hlen, -⟩ := (Rx.consistent_payload hs).mp hinv
    rcases hholds with ⟨-, hchecked⟩ | hfewer
    · rw [← hframe, headerError_append hlen.ge]
      simpa [hs] using hchecked
    · exact absurd (congrArg List.length hcaptured) hfewer.ne
  · rw [← hframe, headerError_append (by rw [List.length_append]; exact Nat.succ_le_succ hlen), hok]

/-- The last response to a good frame is the frame (R161 to R163). -/
theorem getLast?_frameResponses (f : Bytes) (size : Nat) : (frameResponses f size).getLast? = some (0x03 :: f) := by
  unfold frameResponses
  split
  · exact List.getLast?_concat
  · rw [← List.cons_append, ← List.append_assoc]
    exact List.getLast?_concat

/-- Settles O43: a FRAME response with all the bytes comes from a parser that holds all of them, whose checks were those
of DECODE; and what DECODE answers whole is a good frame. -/
theorem streamAcceptsWhatDecodeAccepts : Obligations.StreamAcceptsWhatDecodeAccepts := by
  intro f s hs
  obtain ⟨t, rs, ht, hresp, hlen⟩ := execAll_completes (f.map Instr.rxByte) s
  rw [List.length_map] at hlen
  refine ⟨t, rs, ht, hresp, hlen, fun hlast => ?_, fun hdec => ?_⟩
  · obtain ⟨rs', rfl⟩ := List.getLast?_eq_some_iff.mp hlast
    rcases List.eq_nil_or_concat' f with rfl | ⟨bs, b, rfl⟩
    · simp at hlen
    · obtain ⟨u, hreg, hafter, hexec, hf⟩ := feed_concat_last hs ht (hresp.trans (List.append_assoc _ _ _).symm)
      have hgood := goodFrame_of_rxByte hafter.consistent hexec hf
      have hok := headerError_of_rxByte (hreg ▸ hafter) hexec hf
      exact exec_decodeFrame_of_goodFrame hgood (hreg ▸ hok)
  · obtain ⟨hok, hwhole⟩ := exec_decodeFrame_eq_frame_iff.mp hdec
    have hfeeds := Rx.Feeds.of_decodeError_eq_none (e := s.rx.lastErr) hok hwhole s rfl hs.eq_cleared
    cases ht.symm.trans hfeeds
    rw [← List.append_cancel_left hresp]
    exact getLast?_frameResponses _ _

end Sys2Proof.Machine

/-! PROOF. The RX commands from the states of the parser (R161 to R168). -/

namespace Sys2Proof.Machine

open Sys2Proof

/-! ## One byte as one command -/

/-- One byte is fed by one RX_BYTE (R87). -/
theorem feed_singleton (b : Byte) (s : State) : feed [b] s = exec (.rxByte b) s :=
  feed_concat_of_next (bs := []) rfl b

/-- What feeding one byte does, RX_BYTE does (R87). -/
theorem Rx.Feeds.exec_rxByte {b : Byte} {s : State} {rx : Rx} {rs : List Bytes}
    (h : Rx.Feeds s.reg s.rx [b] rx rs) :
    exec (.rxByte b) s = .next { s with rx := rx, responses := s.responses ++ rs } :=
  (feed_singleton b s).symm.trans (h s rfl rfl)

/-! ## RX_START and RX_EOS -/

/-- Settles O32: the two sides are the same state by the definition of the command. -/
theorem rxStartBeginsAtAFrameBoundary : Obligations.RxStartBeginsAtAFrameBoundary := fun _ => rfl

/-- Settles O33: the two sides are the same state by the definition of the command. -/
theorem rxEosClosesInEveryState : Obligations.RxEosClosesInEveryState := fun _ => rfl

/-! ## A complete frame -/

/-- The CRC check of a captured frame on the numbers: the CRC recomputed with its own field zeroed is the stored one
(R72). -/
theorem crcGood_iff (hdr buf : Bytes) :
    crcGood hdr buf = true ↔
      (crc32 (hdr.take 32 ++ [0, 0, 0, 0] ++ buf)).toNat = leNat ((hdr.drop 32).take 4) := by
  rw [crcGood, beq_iff_eq, ← BitVec.toNat_inj, toNat_crcFieldOf, leAt_eq, crcInput, slice_zero]
  rfl

/-- A complete frame is delivered or dropped, by its CRC (R163). -/
theorem finishFrame_setRx {s : State} {rx : Rx} (hlast : rx.lastErr = s.rx.lastErr) :
    finishFrame (s.setRx rx) =
      if (crc32 (rx.hdr.take 32 ++ [0, 0, 0, 0] ++ rx.buf)).toNat = leNat ((rx.hdr.drop 32).take 4) then
        deliveredFrame (rx.hdr ++ rx.buf) s
      else droppedFrame 0x13 s := by
  simp only [finishFrame, State.setRx_rx, hlast, crcGood_iff]
  rfl

/-! ## HEADER -/

/-- Settles O34. -/
theorem rxByteCollectsTheHeader : Obligations.RxByteCollectsTheHeader :=
  fun _ _ hs hlen => (Rx.Feeds.collectHeader hs hlen).exec_rxByte

/-- A whole header is dropped by the first check that fails; one that passes them all completes its frame or waits for
the payload (R161, R164). -/
theorem validateHeader_setRx (s : State) {rx : Rx} (hbuf : rx.buf = []) :
    validateHeader (s.setRx rx) =
      if leAt 4 rx.hdr 0 ≠ s.reg.magic.toNat then droppedFrame 0x10 s
      else if s.reg.version.toNat < leAt 2 rx.hdr 4 then droppedFrame 0x11 s
      else if s.reg.maxPayload.toNat < leAt 8 rx.hdr 16 then droppedFrame 0x12 s
      else if leAt 8 rx.hdr 16 = 0 then finishFrame (s.setRx rx)
      else
        respond .headerOk (leBytes 8 (leAt 8 rx.hdr 16))
          (s.setRx { rx with state := .payload, remain := BitVec.ofNat 64 (leAt 8 rx.hdr 16) }) := by
  have hzero : payloadSizeOf rx.hdr = 0#64 ↔ leAt 8 rx.hdr 16 = 0 := by
    rw [← BitVec.toNat_inj, toNat_payloadSizeOf, BitVec.toNat_ofNat, Nat.zero_mod]
  simp only [validateHeader, State.setRx_rx, State.setRx_reg, headerError_eq_ite, hzero, toNat_payloadSizeOf, hbuf]
  split_ifs <;> rfl

/-- Settles O35: the numbers of the header's fields decide, and for an empty payload the CRC of the header alone. -/
theorem rxByteValidatesTheHeaderAtItsLastByte : Obligations.RxByteValidatesTheHeaderAtItsLastByte := by
  intro b s hs hlen hbuf h size
  have hfinish : finishFrame (s.setRx { s.rx with hdr := h }) =
      if (crc32 (h.take 32 ++ [0, 0, 0, 0])).toNat = leNat ((h.drop 32).take 4) then deliveredFrame h s
      else droppedFrame 0x13 s := by
    simp only [finishFrame_setRx, hbuf, List.append_nil]
  refine (execRxByte_of_headerEnd hs hlen).trans (congrArg _ ?_)
  rw [validateHeader_setRx (rx := { s.rx with hdr := h }) s hbuf, hfinish, leAt_eq, leAt_eq, leAt_eq, List.drop_zero]
  rfl

/-! ## PAYLOAD -/

/-- Settles O36: a byte before the last is collected, and the last one completes the frame. -/
theorem rxByteChecksTheCrcAtTheLastPayloadByte : Obligations.RxByteChecksTheCrcAtTheLastPayloadByte := by
  intro b s hs _ hpositive
  by_cases hmore : 1 < s.rx.remain.toNat
  · have hremain : s.rx.remain - 1#64 = BitVec.ofNat 64 (s.rx.remain.toNat - 1) := by bv_omega
    rw [if_pos hmore, ← hremain]
    exact (Rx.Feeds.collectPayload hs (by bv_omega)).exec_rxByte
  · have hlast : s.rx.remain = 1#64 := by bv_omega
    rw [if_neg hmore]
    refine (execRxByte_of_payloadEnd hs hlast).trans (congrArg _ ?_)
    exact finishFrame_setRx rfl

/-! ## What RX_BYTE reads of the configuration -/

/-- Settles O40: a payload byte and a header byte before the 36th are taken alike whatever the registers hold. -/
theorem acceptedSizeIsNotCheckedAgain : Obligations.AcceptedSizeIsNotCheckedAgain := by
  rintro b s reg (hs | ⟨hs, hlen⟩)
  · have hpayload (u : State) (hu : u.rx = s.rx) : exec (.rxByte b) u = .next (payloadByte b u) := by
      simp only [exec, execRxByte, hu, hs]
    exact ⟨_, hpayload s rfl, (hpayload (s.setReg reg) rfl).trans (congrArg _ (payloadByte_setReg b s reg))⟩
  · exact ⟨_, rxByteCollectsTheHeader b s hs hlen, rxByteCollectsTheHeader b (s.setReg reg) hs hlen⟩

/-! ## CLOSED -/

/-- CLOSED discards the byte (R165). -/
theorem exec_rxByte_of_closed {s : State} (hs : s.rx.state = .closed) (b : Byte) :
    exec (.rxByte b) s = .next (raise .closed s) := by
  simp only [exec, execRxByte, hs]

/-- Every command but RX_START keeps CLOSED (R165, R167). -/
theorem exec_keeps_closed {i : Instr} {s t : State} (hi : i ≠ .rxStart) (hs : s.rx.state = .closed)
    (ht : exec i s = .next t) : t.rx.state = .closed := by
  by_cases hrx : familyOf i = .rx
  · rcases familyOf_eq_rx.mp hrx with rfl | ⟨b, rfl⟩ | rfl
    · exact absurd rfl hi
    · cases ht.symm.trans (exec_rxByte_of_closed hs b)
      exact hs
    · cases ht
      rfl
  · obtain ⟨u, hu, hkeep⟩ := exec_keeps_rx hrx s
    cases ht.symm.trans hu
    rw [hkeep, hs]

/-- The only packet that takes the parser out of CLOSED is RX_START's (R165, R166). -/
theorem runPacket_leaves_closed {p : Bytes} {s t : State} (hs : s.rx.state = .closed) (ht : runPacket p s = .next t)
    (hleft : t.rx.state ≠ .closed) : p = [0x30] := by
  cases hdec : decode p with
  | illegal why =>
    simp only [runPacket, hdec] at ht
    cases ht
    exact absurd hs hleft
  | command i =>
    rw [runPacket_of_decode hdec] at ht
    by_cases hi : i = .rxStart
    · subst hi
      obtain ⟨-, hencode⟩ := decodedPacketIsTheEncoding p _ hdec
      exact hencode.symm
    · exact absurd (exec_keeps_closed hi hs ht) hleft

/-- Settles O38: by what the step took; of the packets without reset, only RX_START's leaves CLOSED. -/
theorem onlyRestartLeavesClosed : Obligations.OnlyRestartLeavesClosed := by
  refine ⟨fun b s hs => exec_rxByte_of_closed hs b, fun s t hs ht hleft => ?_⟩
  rcases step_cases s with ⟨-, hstep⟩ | ⟨p, rest, hreq, hstep⟩ | ⟨rest, hreq, -⟩ | ⟨p, rest, -, hreq, -⟩ |
    ⟨p, rest, hreq, -⟩
  · cases ht.symm.trans hstep
    exact absurd hs hleft
  · have hp : p = [0x30] := runPacket_leaves_closed (s := s.setRequests rest) hs (hstep.symm.trans ht) hleft
    exact .inr (.inr ⟨rest, hp ▸ hreq⟩)
  · exact .inl ⟨rest, hreq⟩
  · exact .inr (.inl ⟨p, rest, hreq⟩)
  · exact .inr (.inl ⟨p, rest, hreq⟩)

end Sys2Proof.Machine

/-! PROOF. The scan for MAGIC in RESYNC (R170): its window holds the last three bytes fed, so that with the next byte
it holds the last four. -/

namespace Sys2Proof.Machine

open Sys2Proof

/-! ## The last bytes of a sequence -/

/-- The window of three bytes, slid by one byte, is the window of the longer sequence. -/
theorem rtake_rtake_concat (xs : Bytes) (b : Byte) : (xs.rtake 3 ++ [b]).rtake 3 = (xs ++ [b]).rtake 3 := by
  have htwo : (xs.rtake 3).rtake 2 = xs.rtake 2 := by
    simp only [List.rtake_eq_reverse_take_reverse, List.reverse_reverse, List.take_take]
    rfl
  rw [List.rtake_concat_succ, List.rtake_concat_succ, htwo]

/-- The window and the next byte are the last four bytes, so they are MAGIC's exactly when the sequence ends with
them. -/
theorem window_eq_magic_iff (magic : U32) (xs : Bytes) (b : Byte) :
    xs.rtake 3 ++ [b] = leBytes 4 magic.toNat ↔ leBytes 4 magic.toNat <:+ xs ++ [b] := by
  rw [← List.rtake_concat_succ, eq_comm, List.suffix_iff_eq_drop, length_leBytes, List.rtake]

/-! ## One byte -/

/-- A window that equals MAGIC's bytes makes the first four header bytes (R170). -/
theorem resyncWindow_of_eq {magic : U32} {b : Byte} {rx : Rx} (h : rx.hdr ++ [b] = leBytes 4 magic.toNat) :
    resyncWindow magic b rx = { rx with state := .header, hdr := leBytes 4 magic.toNat } := by
  simp only [resyncWindow, h, length_leBytes, if_true]

/-- A window that does not keeps its last three bytes (R170). -/
theorem resyncWindow_of_ne {magic : U32} {b : Byte} {rx : Rx} (hlen : rx.hdr.length ≤ 3)
    (h : rx.hdr ++ [b] ≠ leBytes 4 magic.toNat) :
    resyncWindow magic b rx = { rx with hdr := (rx.hdr ++ [b]).rtake 3 } := by
  rcases resyncWindow_cases magic b rx with ⟨-, hmagic, -⟩ | ⟨hfull, -, hrx⟩ | ⟨hshort, hrx⟩
  · exact absurd hmagic h
  · rw [hrx, List.rtake_concat_succ, List.rtake, hfull]
  · have hall : (rx.hdr ++ [b]).rtake 3 = rx.hdr ++ [b] := by
      rw [List.rtake, List.length_append, List.length_singleton, Nat.sub_eq_zero_of_le (by omega), List.drop_zero]
    rw [hrx, hall]

/-- RESYNC takes a byte into its window (R170). -/
theorem Rx.Feeds.scan {reg : Regs} {b : Byte} {rx : Rx} (hs : rx.state = .resync) :
    Rx.Feeds reg rx [b] (resyncWindow reg.magic b rx) [[0x01]] := by
  refine .of_execRxByte (st := .needMore) (d := []) ?_
  rintro s rfl rfl
  simp only [execRxByte, hs, resyncByte]

/-- Settles O37: the three rows of the window. -/
theorem rxByteSlidesTheSearchWindow : Obligations.RxByteSlidesTheSearchWindow := by
  intro b s hs hlen
  refine (Rx.Feeds.scan hs).exec_rxByte.trans ?_
  rcases resyncWindow_cases s.reg.magic b s.rx with ⟨hfull, hmagic, hrx⟩ | ⟨hfull, hmagic, hrx⟩ | ⟨hshort, hrx⟩
  · rw [hrx, if_neg (Nat.not_lt.mpr hfull.ge), if_pos hmagic]
  · rw [hrx, if_neg (Nat.not_lt.mpr hfull.ge), if_neg hmagic]
  · rw [hrx, if_pos (Nat.lt_of_le_of_ne hlen hshort)]

/-! ## A scan -/

section Scan

variable {reg : Regs} {rx : Rx} {xs : Bytes} {b : Byte}

/-- Bytes without MAGIC's are passed over, and the last three of them are the window (R170). -/
theorem Rx.Feeds.scan_all (hs : rx.state = .resync) (hempty : rx.hdr = [])
    (hmiss : ¬ leBytes 4 reg.magic.toNat <:+: xs) :
    Rx.Feeds reg rx xs { rx with hdr := xs.rtake 3 } (List.replicate xs.length [0x01]) := by
  induction xs using List.reverseRecOn with
  | nil =>
    have hkeep : { rx with hdr := [] } = rx := by rw [← hempty]
    rw [List.rtake_nil, hkeep]
    exact .nil
  | append_singleton xs b ih =>
    have hne : xs.rtake 3 ++ [b] ≠ leBytes 4 reg.magic.toNat :=
      fun h => hmiss ((window_eq_magic_iff _ _ _).mp h).isInfix
    have hlen : (xs.rtake 3).length ≤ 3 := by
      rw [List.rtake, List.length_drop]
      omega
    have hlast := Rx.Feeds.scan (reg := reg) (b := b) (rx := { rx with hdr := xs.rtake 3 }) hs
    rw [resyncWindow_of_ne hlen hne, rtake_rtake_concat] at hlast
    rw [List.length_append, List.length_singleton, List.replicate_succ']
    exact (ih fun h => hmiss (h.trans ⟨[], [b], rfl⟩)).append hlast

/-- The byte that completes MAGIC's first occurrence makes its bytes the first header bytes (R170). -/
theorem Rx.Feeds.scan_found (hs : rx.state = .resync) (hempty : rx.hdr = [])
    (hmiss : ¬ leBytes 4 reg.magic.toNat <:+: xs) (hfound : leBytes 4 reg.magic.toNat <:+ xs ++ [b]) :
    Rx.Feeds reg rx (xs ++ [b]) { rx with state := .header, hdr := leBytes 4 reg.magic.toNat }
      (List.replicate (xs ++ [b]).length [0x01]) := by
  have hlast := Rx.Feeds.scan (reg := reg) (b := b) (rx := { rx with hdr := xs.rtake 3 }) hs
  rw [resyncWindow_of_eq ((window_eq_magic_iff _ _ _).mpr hfound)] at hlast
  rw [List.length_append, List.length_singleton, List.replicate_succ']
  exact (Rx.Feeds.scan_all hs hempty hmiss).append hlast

end Scan

/-- Settles O44: the window holds the last three bytes, so the scan finds MAGIC as soon as the bytes fed end with it. -/
theorem resyncFindsTheFirstMagic : Obligations.ResyncFindsTheFirstMagic := by
  intro xs s hs hempty magic
  refine ⟨fun hmiss => Rx.Feeds.scan_all hs hempty hmiss s rfl rfl, fun hfound hfirst => ?_⟩
  obtain rfl | ⟨ys, b, rfl⟩ := List.eq_nil_or_concat' xs
  · exact absurd (congrArg List.length (List.suffix_nil.mp hfound)) (by simp [magic])
  · rw [List.dropLast_concat] at hfirst
    exact Rx.Feeds.scan_found hs hempty hfirst hfound s rfl rfl

end Sys2Proof.Machine

/-! PROOF. Register access: an illegal command writes no state (R192), and CRC_ACC read and written back (R106, R190,
R191). -/

namespace Sys2Proof.Machine

open Sys2Proof

/-! ## The packets of CFG_READ and CFG_WRITE -/

theorem byteAt_cons_one (op : Byte) (ops : Bytes) : byteAt (op :: ops) 1 = ops.headD 0 := by
  cases ops <;> rfl

/-- CFG_READ's row, its operand read at the offset of format R (R81, R82). -/
theorem rowOf_cfgRead (p : Bytes) : rowOf 0x40 p = some (.R, .cfgRead (byteAt p 1)) := rfl

/-! ## Illegal commands -/

theorem runPacket_of_illegal {p : Bytes} {why : Illegal} (h : decode p = .illegal why) (s : State) :
    runPacket p s = .next (raise .illegalCommand s) := by
  simp only [runPacket, h]

/-- A packet in the class of R192 that decodes to a command names a register that the command may not access. -/
theorem not_namesAccessibleRegister_of_illegalPacket {p : Bytes} {i : Instr} (h : IllegalPacket p)
    (hdec : decode p = .command i) : ¬ NamesAccessibleRegister i := by
  cases p with
  | nil => cases commandsAreThePacketsThatFit.1.symm.trans hdec
  | cons op ops =>
    obtain ⟨fmt, hrow, -⟩ := decode_cons_eq_command_iff.mp hdec
    rcases h with hfits | ⟨hop, hreg⟩ | ⟨hop, hreg⟩
    · exact absurd ((commandsAreThePacketsThatFit.2 op ops).mp ⟨i, hdec⟩) hfits
    · obtain rfl : op = 0x40 := BitVec.eq_of_toNat_eq hop
      rw [rowOf_cfgRead, byteAt_cons_one] at hrow
      cases hrow
      exact hreg
    · obtain rfl : op = 0x41 := BitVec.eq_of_toNat_eq hop
      rw [rowOf_cfgWrite, byteAt_cons_one] at hrow
      cases hrow
      exact hreg

/-- The registers a write may store to are those numbered 0x00 to 0x03 (R22, R191). -/
theorem number_mem_of_writeReg {reg reg' : Regs} {v : U64} {n : Reg} (h : writeReg reg v n = some reg') :
    n.number.toNat ∈ [0x00, 0x01, 0x02, 0x03] := by
  cases n with
  | magic | version | maxPayload | crcAcc => decide
  | maxPayloadCap | status | rxRemain => cases h

/-- A command that names a register it may not access is answered ILLEGAL_COMMAND and writes no state (R190, R191). -/
theorem exec_of_not_namesAccessibleRegister {i : Instr} (h : ¬ NamesAccessibleRegister i) (s : State) :
    exec i s = .next (raise .illegalCommand s) := by
  cases i with
  | cfgRead r => exact exec_cfgRead_reserved (Reg.ofNumber_eq_none_iff.mpr h) s
  | cfgWrite r v =>
    rcases exec_cfgWrite_cases r v s with ⟨n, reg, rfl, hw, -⟩ | hraise
    · exact absurd (number_mem_of_writeReg hw) h
    · exact hraise
  | _ => exact absurd trivial h

theorem runPacket_of_illegalPacket {p : Bytes} (h : IllegalPacket p) (s : State) :
    runPacket p s = .next (raise .illegalCommand s) := by
  cases hdec : decode p with
  | command i =>
    rw [runPacket_of_decode hdec]
    exact exec_of_not_namesAccessibleRegister (not_namesAccessibleRegister_of_illegalPacket h hdec) s
  | illegal why => exact runPacket_of_illegal hdec s

/-- Settles O7: whether the decoder refuses the packet or its command refuses the register, the block raises
ILLEGAL_COMMAND and does nothing else. -/
theorem illegalCommandWritesNoState : Obligations.IllegalCommandWritesNoState := by
  intro s p rest hreq hillegal
  rw [step_of_packet hreq, runPacket_of_illegalPacket hillegal]
  rfl

/-! ## CRC_ACC read and written back -/

/-- The zero-extended value of CRC_ACC, written to any registers, gives them the same accumulator (R190, R191). -/
theorem writeReg_crcAcc_readReg (s : State) (reg : Regs) :
    writeReg reg (readReg s .crcAcc) .crcAcc = some { reg with crcAcc := s.reg.crcAcc } := by
  rw [readReg, writeReg, BitVec.setWidth_setWidth_of_le _ (by decide), BitVec.setWidth_eq]

/-- Settles O24: the value is the one CFG_READ returns. -/
theorem crcCanBeSuspendedAndResumed : Obligations.CrcCanBeSuspendedAndResumed := fun s u =>
  ⟨readReg s .crcAcc, exec_cfgRead_number .crcAcc s, exec_cfgWrite_number (writeReg_crcAcc_readReg s u.reg)⟩

end Sys2Proof.Machine

/-! PROOF. Reset on the port: alone (R240), and together with a packet (R241). -/

namespace Sys2Proof.Machine

open Sys2Proof

/-! ## Reset alone -/

theorem step_of_reset {s : State} {rest : List Request} (h : s.requests = .reset :: rest) :
    step s = .next (s.setRequests rest).resetBlock := by
  simp only [step, takeRequest, h]

/-- STATUS of the reset parser: HEADER is number 0, and neither a header byte nor an error is held (R28). -/
theorem statusView_reset : statusView Rx.reset = 0 := by decide

/-- Settles O13. -/
theorem resetGivesEveryComponentItsValue : Obligations.ResetGivesEveryComponentItsValue :=
  ⟨fun _ _ hreq => step_of_reset hreq, rfl, rfl, statusView_reset, rfl⟩

/-! ## Reset together with a packet -/

theorem step_of_packetWithReset {s : State} {p : Bytes} {rest : List Request}
    (h : s.requests = .commandWithReset p :: rest) : step s = resetWithPacket p (s.setRequests rest) := by
  simp only [step, takeRequest, h]

/-- A packet runs the same whether or not a draw was counted before it. -/
theorem runPacket_countDraw (p : Bytes) (s : State) :
    ∃ u, runPacket p s = .next u ∧ runPacket p s.countDraw = .next u.countDraw := by
  obtain ⟨reg, rx, r, hrun⟩ := runPacket_block p s.reg s.rx
  exact ⟨_, hrun s.requests s.responses s.draws, hrun s.requests s.responses (s.draws + 1)⟩

theorem resetWithPacket_taken {p : Bytes} {s u : State} (hdraw : Config.commandBeforeReset s.draws = true)
    (hrun : runPacket p s = .next u) : resetWithPacket p s = .next u.countDraw.resetBlock := by
  obtain ⟨v, hv, hcount⟩ := runPacket_countDraw p s
  cases hrun.symm.trans hv
  simp only [resetWithPacket, hdraw, hcount, if_true]

theorem resetWithPacket_dropped {s : State} (p : Bytes) (hdraw : ¬ Config.commandBeforeReset s.draws = true) :
    resetWithPacket p s = .next s.countDraw.resetBlock := by
  rw [resetWithPacket, if_neg hdraw]

/-- Settles O14: by the draw, the block resets after the packet has run whole, or at once. -/
theorem commandWithResetIsWholeOrDropped : Obligations.CommandWithResetIsWholeOrDropped := by
  intro s p rest hreq
  rw [step_of_packetWithReset hreq]
  by_cases hdraw : Config.commandBeforeReset s.draws = true
  · obtain ⟨u, -, -, hrun, -, hrequests, hdraws⟩ := runPacket_answers p (s.setRequests rest)
    refine ⟨_, resetWithPacket_taken hdraw hrun, rfl, rfl, hrequests, congrArg (· + 1) hdraws, ?_⟩
    rw [if_pos hdraw]
    exact ⟨u, (step_of_packet rfl).trans hrun, rfl⟩
  · refine ⟨_, resetWithPacket_dropped p hdraw, rfl, rfl, rfl, rfl, ?_⟩
    rw [if_neg hdraw]
    rfl

end Sys2Proof.Machine

/-! PROOF. A step with no request on the port (R217). -/

namespace Sys2Proof.Machine

open Sys2Proof

/-- Settles O12: with the port empty, `takeRequest` takes its first branch, which answers the state it was given. -/
theorem idleStepChangesNothing : Obligations.IdleStepChangesNothing := by
  intro s hempty
  rw [step, takeRequest, hempty]

end Sys2Proof.Machine
